-- ==== Sys2Proof/Word.lean ====
section
/-! DEFINITION. The word types of the CHIP-8 core (`spec/10_state.md` R12 to R16, `spec/30_encoding.md` R52, R53). Every
value of the machine is unsigned (`spec/00_scope.md` R9). -/

namespace Sys2Proof

/-- A 4-bit field of an instruction word, the glossary's "nibble". -/
abbrev Nibble := BitVec 4

/-- A memory byte, a general register, a timer or an 8-bit immediate `nn`. -/
abbrev Byte := BitVec 8

/-- The 12-bit address field `nnn`. -/
abbrev Addr12 := BitVec 12

/-- I, PC, a return address or an instruction word. -/
abbrev Word := BitVec 16

/-- A general register's index, 0x0 to 0xF: always in range, because it comes from a 4-bit field (R12). -/
abbrev Reg := Fin 16

end Sys2Proof
end

