-- ==== Sys2Proof/Config.lean ====
section
/-! DEFINITION. What is fixed when the machine is built or constructed (`spec/00_scope.md` R6, `spec/10_state.md` R27),
and the free values: the two draws the spec leaves open (`spec/00_scope.md` R7). -/

namespace Sys2Proof

/-- `FLAG_WRITE_ORDER` (`spec/42_alu.md` R74): which of the two writes of a flag-writing ALU instruction lands last.
It is seen only where the destination is VF itself. -/
inductive FlagWriteOrder where
  /-- The spec's decision (D4): the result is written, then the flag. -/
  | flagLast
  /-- The alternative the spec names: the flag is written, then the result. -/
  | resultLast
  deriving DecidableEq, Repr

/-- Bytes of the built-in glyph set: 16 glyphs of 5 bytes (R28). -/
abbrev fontSize : Nat := 80

/-- Bytes of memory, the `limit` every address is checked against (R6, R33, R37). -/
abbrev memSize : Nat := 4096

/-- The default `FONT`: the standard CHIP-8 font, row by row of the table under R28.
PRESUMED: the bytes come from general knowledge, not from the source (log 2). Unsafe where a claim reads them. -/
def standardFont : Vector Byte fontSize :=
  ⟨⟨[0xF0#8, 0x90#8, 0x90#8, 0x90#8, 0xF0#8] ++ [0x20#8, 0x60#8, 0x20#8, 0x20#8, 0x70#8] ++
    [0xF0#8, 0x10#8, 0xF0#8, 0x80#8, 0xF0#8] ++ [0xF0#8, 0x10#8, 0xF0#8, 0x10#8, 0xF0#8] ++
    [0x90#8, 0x90#8, 0xF0#8, 0x10#8, 0x10#8] ++ [0xF0#8, 0x80#8, 0xF0#8, 0x10#8, 0xF0#8] ++
    [0xF0#8, 0x80#8, 0xF0#8, 0x90#8, 0xF0#8] ++ [0xF0#8, 0x10#8, 0x20#8, 0x40#8, 0x40#8] ++
    [0xF0#8, 0x90#8, 0xF0#8, 0x90#8, 0xF0#8] ++ [0xF0#8, 0x90#8, 0xF0#8, 0x10#8, 0xF0#8] ++
    [0xF0#8, 0x90#8, 0xF0#8, 0x90#8, 0x90#8] ++ [0xE0#8, 0x90#8, 0xE0#8, 0x90#8, 0xE0#8] ++
    [0xF0#8, 0x80#8, 0x80#8, 0x80#8, 0xF0#8] ++ [0xE0#8, 0x90#8, 0x90#8, 0x90#8, 0xE0#8] ++
    [0xF0#8, 0x80#8, 0xF0#8, 0x80#8, 0xF0#8] ++ [0xF0#8, 0x80#8, 0xF0#8, 0x80#8, 0x80#8]⟩, rfl⟩

/-- The configuration (R6, R27): host-supplied at construction, never changed afterwards. `fontBase` is bounded by its
type: a configuration with `FONT_BASE + 80 > 4096` is refused at construction (R39, R134), so no machine holds one. -/
structure Config where
  /-- `PROGRAM_BASE`: where the program image begins, and the PC after reset. Any 16-bit value (D21). -/
  programBase : Word := 0x200#16
  /-- `FONT_BASE`: where the glyph set is written; 0..4016. -/
  fontBase : Fin (memSize - fontSize + 1) := 0x050
  /-- `STEPS_PER_TICK`: any natural number, 0 included (D21). -/
  stepsPerTick : Nat := 10
  /-- `FONT`: the 80 glyph bytes. -/
  font : Vector Byte fontSize := standardFont
  /-- `FLAG_WRITE_ORDER`, decided `flag_last` (D4, log 3). -/
  flagWriteOrder : FlagWriteOrder := .flagLast
  deriving DecidableEq, Repr

/-- FREE VALUE. `RANDOM` (R86, D11): the byte the `k`-th draw of the machine yields. Nothing constrains it (log 4).
DESIGN CHOICE: it is the same byte for every machine and every construction, where the spec leaves each draw open
(`spec/60_exceptions.md` R126, `spec/91_not_in_source.md` N6); unsafe for a claim that compares two machines' draws. -/
opaque Config.randomByte : Nat → Byte

/-- FREE VALUE. `KEY_CHOICE` (R103, D10): the number that picks, at the `k`-th draw, one of the pressed keys (log 5).
DESIGN CHOICE: it is the same number for every machine and every construction, as for `Config.randomByte`. -/
opaque Config.keyChoice : Nat → Nat

end Sys2Proof
end

