-- ==== Sys2Proof/Syntax.lean ====
section
/-! DEFINITION. The 34 instructions, one constructor per row of `spec/opcode_table.json` and of the opcode map
(`spec/30_encoding.md` R56), in the map's order. -/

namespace Sys2Proof

/-- An instruction with the operands R54 forms from its word. The rows SHR and SHL keep the `y` nibble: the spec decodes
it and ignores it (`spec/42_alu.md` R83, R85). -/
inductive Instr where
  /-- 00E0 -/
  | cls
  /-- 00EE -/
  | ret
  /-- 1nnn -/
  | jp (nnn : Addr12)
  /-- 2nnn -/
  | call (nnn : Addr12)
  /-- 3xnn -/
  | seImm (x : Reg) (nn : Byte)
  /-- 4xnn -/
  | sneImm (x : Reg) (nn : Byte)
  /-- 5xy0 -/
  | seReg (x y : Reg)
  /-- 6xnn -/
  | ldImm (x : Reg) (nn : Byte)
  /-- 7xnn -/
  | addImm (x : Reg) (nn : Byte)
  /-- 8xy0 -/
  | ldReg (x y : Reg)
  /-- 8xy1 -/
  | or (x y : Reg)
  /-- 8xy2 -/
  | and (x y : Reg)
  /-- 8xy3 -/
  | xor (x y : Reg)
  /-- 8xy4 -/
  | addReg (x y : Reg)
  /-- 8xy5 -/
  | sub (x y : Reg)
  /-- 8xy6, `y` ignored -/
  | shr (x y : Reg)
  /-- 8xy7 -/
  | subn (x y : Reg)
  /-- 8xyE, `y` ignored -/
  | shl (x y : Reg)
  /-- 9xy0 -/
  | sneReg (x y : Reg)
  /-- Annn -/
  | ldI (nnn : Addr12)
  /-- Bnnn -/
  | jpV0 (nnn : Addr12)
  /-- Cxnn -/
  | rnd (x : Reg) (nn : Byte)
  /-- Dxyn -/
  | drw (x y : Reg) (n : Nibble)
  /-- Ex9E -/
  | skp (x : Reg)
  /-- ExA1 -/
  | sknp (x : Reg)
  /-- Fx07 -/
  | ldVxDt (x : Reg)
  /-- Fx0A -/
  | ldVxK (x : Reg)
  /-- Fx15 -/
  | ldDtVx (x : Reg)
  /-- Fx18 -/
  | ldStVx (x : Reg)
  /-- Fx1E -/
  | addIVx (x : Reg)
  /-- Fx29 -/
  | ldFVx (x : Reg)
  /-- Fx33 -/
  | ldBVx (x : Reg)
  /-- Fx55 -/
  | ldMemVx (x : Reg)
  /-- Fx65 -/
  | ldVxMem (x : Reg)
  deriving DecidableEq, Repr

end Sys2Proof
end

