-- ==== Sys2Proof/Machine/State.lean ====
section
/-! DEFINITION. The machine's state as plain data, holding everything `spec/10_state.md` and `spec/20_memory.md` give it,
its state after reset, and the reasons a step can stop. -/

namespace Sys2Proof.Machine

/-- Why the spec's own error kind `Unspecified` is raised (`spec/60_exceptions.md` R117). -/
inductive UnspecifiedReason where
  /-- Fx1E with `I + V[x] > 0xFFFF` (R89, D8). -/
  | indexOverflow
  /-- Ex9E or ExA1 with `V[x] > 15` (R101, R102, D9). -/
  | keyIndexOutOfRange
  deriving DecidableEq, Repr

/-- The error kinds a step can end with (`spec/60_exceptions.md` R112), each with the information it records. -/
inductive Error where
  /-- Raised by a fetch, Dxyn, Fx33, Fx55, Fx65 and the host's `load`: an accessed address is not below `limit` (R113).
  Safe: the spec names the error. -/
  | addressOutOfBounds (address limit : Nat)
  /-- Raised by 2nnn when the stack already holds 15 entries (R114). Safe. -/
  | stackOverflow
  /-- Raised by 00EE when the stack is empty (R115). Safe. -/
  | stackUnderflow
  /-- Raised at execute for a word no row of the opcode map matches (R116). Safe. -/
  | opcodeNotImplemented (w : Word)
  /-- Raised by Fx1E, Ex9E and ExA1 where the source gives no behaviour; the spec's own kind (R117). Safe: the real
  block might go on. -/
  | unspecified (reason : UnspecifiedReason)
  deriving DecidableEq, Repr

/-- Memory: the bytes that differ from what an unlisted address reads as, by strictly rising address. -/
abbrev Memory := List Host.Cell

/-- `key[0..15]`, true meaning pressed (R23). -/
abbrev Keypad := Vector Bool 16

/-- `fb[px][py]`: 64 columns of 32 pixels, true meaning on (R24). -/
abbrev Framebuffer := Vector (Vector Bool 32) 64

/-- The state of the block: the table at the head of `spec/10_state.md`, the fault status of R120, and the model's own
count of draws (R7). -/
structure State where
  /-- V0..VF (R12). -/
  v : Vector Byte 16
  /-- The index register I (R15). -/
  i : Word
  /-- The program counter (R16): during execution, the instruction's own address plus 2. -/
  pc : Word
  /-- Return addresses, the top last (R18). -/
  stack : List Word
  /-- The delay timer (R22). -/
  dt : Byte
  /-- The sound timer (R22). -/
  st : Byte
  /-- The keypad, owned by the host (R23). -/
  keys : Keypad
  /-- The framebuffer (R24). -/
  fb : Framebuffer
  /-- The 4096-byte memory (R33). -/
  mem : Memory
  /-- The program image a reset replays (R26). -/
  programImage : List Byte
  /-- The configuration, fixed at construction (R27). -/
  config : Config
  /-- The fault status: the first error, cleared only by `reset()` (R120). -/
  fault : Option Error
  /-- The model's own: how many draws of `RANDOM` and `KEY_CHOICE` have been taken (logs 4 and 5). -/
  draws : Nat
  deriving DecidableEq, Repr

/-- How a step stops with an error. -/
inductive Fault where
  /-- Raised by `Sys2Proof.Machine.raise` alone, for every error kind of R112: the error the step returns to the host, and
  the state it leaves, in which the writes before the failing primitive stand (R119) and the fault status is the error
  (R120). Safe: the spec names every such error. -/
  | raised (e : Error) (after : State)
  deriving DecidableEq, Repr

/-- Why the model has no move. -/
inductive Refusal where
  /-- Raised by no meaning: an instruction not modelled yet. Safe. -/
  | notModelled (mnemonic : String)
  /-- Raised by `step` and `tick` on a machine whose fault status is set: the model offers no move but `reset()` (R120,
  D18, log 11). Unsafe for claims about a host that keeps stepping. -/
  | stepAfterFault (e : Error)
  /-- Raised by `construct` where `FONT_BASE + 80 > 4096` (R39, R134, D21, log 12). Safe. -/
  | fontDoesNotFit (base : Nat)
  /-- Raised by `loadProgram` where the image does not fit (R40, D22, log 12). Safe. -/
  | programDoesNotFit (base len : Nat)
  deriving DecidableEq, Repr

/-- The state at construction under a configuration (`spec/10_state.md` R32, `spec/70_reset_and_hazards.md` R134). The
source gives no value for the registers: 0 and empty are the spec's decision D14 (log 1). Nothing is listed in memory:
it holds its reset contents, the font and zeros. -/
def State.constructed (c : Config) : State where
  v := Vector.replicate 16 0#8
  i := 0#16
  pc := c.programBase
  stack := []
  dt := 0#8
  st := 0#8
  keys := Vector.replicate 16 false
  fb := Vector.replicate 64 (Vector.replicate 32 false)
  mem := []
  programImage := []
  config := c
  fault := none
  draws := 0

/-- The machine right after reset, with the default configuration and no program loaded (R6, R32, R134). -/
def State.reset : State := State.constructed {}

end Sys2Proof.Machine
end

