-- ==== Sys2Proof/WellFormed.lean ====
section
/-! DEFINITION. Well-formedness: of an instruction's operands (`spec/30_encoding.md` R54), of a configuration and of a
program image (`spec/92_eei_decisions.md` D21, D22). -/

namespace Sys2Proof

/-- The value `v` fits an operand field of `bits` bits. -/
def fieldFits (bits v : Nat) : Bool := decide (v < 2 ^ bits)

/-- Every operand fits the field R53 gives it. The operands' types already say so (`Instr.wf_all` in
`Sys2Proof/Laws/Decode.lean`), so no well-formed instruction is left out of any statement. -/
def Instr.wf : Instr → Bool
  | .cls | .ret => true
  | .jp nnn | .call nnn | .ldI nnn | .jpV0 nnn => fieldFits 12 nnn.toNat
  | .seImm x nn | .sneImm x nn | .ldImm x nn | .addImm x nn | .rnd x nn =>
    fieldFits 4 x.val && fieldFits 8 nn.toNat
  | .seReg x y | .ldReg x y | .or x y | .and x y | .xor x y | .addReg x y | .sub x y | .shr x y
  | .subn x y | .shl x y | .sneReg x y => fieldFits 4 x.val && fieldFits 4 y.val
  | .drw x y n => fieldFits 4 x.val && fieldFits 4 y.val && fieldFits 4 n.toNat
  | .skp x | .sknp x | .ldVxDt x | .ldVxK x | .ldDtVx x | .ldStVx x | .addIVx x | .ldFVx x
  | .ldBVx x | .ldMemVx x | .ldVxMem x => fieldFits 4 x.val

/-- The font fits at `base`: the condition for construction (R39, R134, D21). -/
def fontFits (base : Nat) : Bool := decide (base + fontSize ≤ memSize)

/-- A block of `len` bytes fits at `base`: `load`'s one bound check, a zero-length block fitting anywhere (R38, D22). -/
def blockFits (base len : Nat) : Bool := decide (len = 0 ∨ base + len ≤ memSize)

end Sys2Proof
end

