-- ==== Sys2Proof/Machine/Ops.lean ====
section
/-! DEFINITION. The shared operations: sequencing, raising an error, and the primitives over registers, stack, memory,
framebuffer and keypad (`spec/00_scope.md` R10). -/

namespace Sys2Proof.Machine

/-! ## Sequencing -/

/-- What a primitive answers: a value and where the machine goes on, or a stop. -/
abbrev Result (α : Type) := Host.Outcome α Fault Refusal

/-- Statements run in the order written; a stop ends the step at once (R10, R108, R119). -/
def andThen {α β : Type} (r : Result α) (f : α → Result β) : Result β :=
  match r with
  | .next a => f a
  | .fault e => .fault e
  | .refused e => .refused e

/-- `for k in first .. first + count - 1, ascending`: run `body k` on the accumulated value. -/
def forEach {α : Type} (count first : Nat) (body : Nat → α → Result α) (a : α) : Result α :=
  match count with
  | 0 => .next a
  | count + 1 => andThen (body first a) (forEach count (first + 1) body)

/-! ## Taking an error -/

/-- TAKING AN EXCEPTION (`spec/60_exceptions.md` R119, R120, R121): the step ends, the error goes to the host, the writes
made so far stand and the fault status records the error. No register, mode or PC changes: the block has no handler,
vector or mode. The one way back is the host's `reset()` (R122), `hostReset` in `Sys2Proof/Machine/Controller.lean`. -/
def raise {α : Type} (e : Error) (s : State) : Result α := .fault (.raised e { s with fault := some e })

/-! ## General registers (R12) -/

/-- `V[x]`. -/
def State.getV (s : State) (x : Reg) : Byte := s.v[x]

/-- `V[x] <- b`. -/
def State.setV (s : State) (x : Reg) (b : Byte) : State := { s with v := s.v.set x b }

/-- `V0`. -/
def regV0 : Reg := 0

/-- `VF`, the flag output (R13). -/
def regVF : Reg := 15

/-! ## The call stack (R18 to R21) -/

/-- `STACK_MAX_DEPTH` = `STACK_CAPACITY` - 1: one of the 16 slots is never used (R19). -/
def stackMaxDepth : Nat := 15

/-- `push(v)` (R20). The test is the equivalent `length(stack) >= 15`. -/
def push (v : Word) (s : State) : Result State :=
  if stackMaxDepth ≤ s.stack.length then raise .stackOverflow s
  else .next { s with stack := s.stack ++ [v] }

/-- `pop()` (R21): the last entry and the state without it. -/
def pop (s : State) : Result (Word × State) :=
  match s.stack.getLast? with
  | none => raise .stackUnderflow s
  | some v => .next (v, { s with stack := s.stack.dropLast })

/-! ## Memory (`spec/20_memory.md`) -/

/-- What an address nothing has written reads as: the reset contents, `FONT` at `FONT_BASE` and zero elsewhere (R32,
R33, R41). -/
def unlistedByte (c : Config) (a : Nat) : Byte :=
  if c.fontBase.val ≤ a then c.font.toList.getD (a - c.fontBase.val) 0#8 else 0#8

/-- The byte at an address. -/
def Memory.read (c : Config) : Memory → Nat → Byte
  | [], a => unlistedByte c a
  | (k, b) :: rest, a => if k = a then b else Memory.read c rest a

/-- Insert a cell before the first cell of a higher address. -/
def Memory.insertCell (cell : Host.Cell) : Memory → Memory
  | [] => [cell]
  | c :: rest => if cell.1 < c.1 then cell :: c :: rest else c :: Memory.insertCell cell rest

/-- The memory with no cell for an address. -/
def Memory.erase (m : Memory) (a : Nat) : Memory := m.filter (fun cell => cell.1 != a)

/-- Store one byte, keeping the canonical form: a byte equal to what the address reads as unlisted is not listed. -/
def Memory.write (c : Config) (m : Memory) (a : Nat) (b : Byte) : Memory :=
  if b = unlistedByte c a then m.erase a else (m.erase a).insertCell (a, b)

/-- The canonical form: addresses strictly rising, all below 4096, no cell equal to what its address reads as unlisted. -/
abbrev Memory.wf (c : Config) (m : Memory) : Prop :=
  m.Pairwise (fun p q => p.1 < q.1) ∧ ∀ p ∈ m, p.1 < memSize ∧ p.2 ≠ unlistedByte c p.1

/-- Store a block byte by byte from a base address, with no check. -/
def Memory.writeBlock (c : Config) (m : Memory) (base : Nat) : List Byte → Memory
  | [] => m
  | b :: rest => Memory.writeBlock c (m.write c base b) (base + 1) rest

/-- The byte of the machine's memory at an address. -/
def State.byteAt (s : State) (a : Nat) : Byte := s.mem.read s.config a

/-- The machine with one byte of memory changed. -/
def State.setByte (s : State) (a : Nat) (b : Byte) : State := { s with mem := s.mem.write s.config a b }

/-- `MemRead(a, 1)` (R35). The address is an unbounded number, checked against 4096 (R34). -/
def memRead (a : Nat) (s : State) : Result Byte :=
  if memSize ≤ a then raise (.addressOutOfBounds a memSize) s else .next (s.byteAt a)

/-- `MemWrite(a, 1, b)` (R36). A failed write changes nothing. -/
def memWrite (a : Nat) (b : Byte) (s : State) : Result State :=
  if memSize ≤ a then raise (.addressOutOfBounds a memSize) s else .next (s.setByte a b)

/-- `load(base, bytes)` (R38): one bound check on the whole block before the copy; the last address is reported. -/
def load (base : Nat) (bytes : List Byte) (s : State) : Result State :=
  if blockFits base bytes.length then .next { s with mem := s.mem.writeBlock s.config base bytes }
  else raise (.addressOutOfBounds (base + bytes.length - 1) memSize) s

/-! ## The framebuffer (R24, R25) -/

/-- `get(px, py)`. -/
def Framebuffer.get (fb : Framebuffer) (px : Fin 64) (py : Fin 32) : Bool := fb[px][py]

/-- Give one pixel a value. -/
def Framebuffer.put (fb : Framebuffer) (px : Fin 64) (py : Fin 32) (on : Bool) : Framebuffer :=
  fb.set px (fb[px].set py on)

/-- `set(px, py)`; used by no instruction. -/
def Framebuffer.set (fb : Framebuffer) (px : Fin 64) (py : Fin 32) : Framebuffer := Framebuffer.put fb px py true

/-- `clear_pixel(px, py)`; used by no instruction. -/
def Framebuffer.clearPixel (fb : Framebuffer) (px : Fin 64) (py : Fin 32) : Framebuffer :=
  Framebuffer.put fb px py false

/-- `toggle(px, py)`. -/
def Framebuffer.toggle (fb : Framebuffer) (px : Fin 64) (py : Fin 32) : Framebuffer :=
  Framebuffer.put fb px py (!Framebuffer.get fb px py)

/-- `clear()`: every pixel false. -/
def Framebuffer.clear : Framebuffer := Vector.replicate 64 (Vector.replicate 32 false)

/-- The pixel the host reads at column `px`, row `py`. -/
def State.pixel (s : State) (px : Fin 64) (py : Fin 32) : Bool := Framebuffer.get s.fb px py

/-! ## The keypad (R23) -/

/-- `key[k]`. -/
def State.key (s : State) (k : Fin 16) : Bool := s.keys[k]

/-- The set `S` of pressed keys, lowest first (R103). -/
def State.pressedKeys (s : State) : List (Fin 16) := (List.finRange 16).filter s.key

/-! ## The draws (R7) -/

/-- `draw RANDOM` (R86): a fresh unconstrained byte, and the state in which it has been taken. FREE VALUE (log 4).
DESIGN CHOICE: two machines whose counts agree draw the same byte; the spec promises no such repetition (R126, N6). -/
def drawRandom (s : State) : Byte × State := (Config.randomByte s.draws, { s with draws := s.draws + 1 })

/-- `draw KEY_CHOICE(S)` (R103): some element of `S`, and the state in which it has been taken. FREE VALUE (log 5): the
free number picks among the pressed keys, and every pressed key is some number's pick. DESIGN CHOICE: two machines whose
counts agree draw the same number; the spec promises no such repetition (R126, N6). -/
def drawKeyChoice (S : List (Fin 16)) (s : State) : Fin 16 × State :=
  (S.getD (Config.keyChoice s.draws % S.length) 0, { s with draws := s.draws + 1 })

end Sys2Proof.Machine
end

