-- ==== Sys2Proof/Machine/Flags.lean ====
section
/-! DEFINITION. Every flag computation (`spec/42_alu.md` R73, `spec/44_display.md` R97) and the order in which result and
flag are written (R74). VF is the only flag. -/

namespace Sys2Proof.Machine

/-- A flag's value in VF: 1 or 0, never another (R73). -/
def flagByte (flag : Bool) : Byte := if flag then 1#8 else 0#8

/-- Carry of `a + b` (8xy4): the unbounded sum is above 255. -/
def carry (a b : Byte) : Bool := decide (255 < a.toNat + b.toNat)

/-- NOT borrow of `a - b` (8xy5, and 8xy7 with its operands exchanged): false exactly when `a < b`. -/
def notBorrow (a b : Byte) : Bool := !decide (a.toNat < b.toNat)

/-- The bit 8xy6 shifts out: bit 0. -/
def shiftedOutRight (a : Byte) : Bool := a.getLsbD 0

/-- The bit 8xyE shifts out: bit 7. -/
def shiftedOutLeft (a : Byte) : Bool := a.getLsbD 7

/-- Write `V[x]` and `V[F]`, both already computed from the operands read before any write (R11, R74). The decided order
is the result first, so VF ends holding the flag; `FLAG_WRITE_ORDER` keeps the alternative (D4, log 3). -/
def writeResultAndFlag (x : Reg) (result : Byte) (flag : Bool) (s : State) : State :=
  match s.config.flagWriteOrder with
  | .flagLast => (s.setV x result).setV regVF (flagByte flag)
  | .resultLast => (s.setV regVF (flagByte flag)).setV x result

end Sys2Proof.Machine
end

