-- ==== Sys2Proof/Machine/Alu.lean ====
section
/-! DEFINITION. Register loads, arithmetic, logic, shifts and random (`spec/42_alu.md`). All arithmetic is on unsigned
8-bit values modulo 256 (R73); operands are read before any write (R11, R74). -/

namespace Sys2Proof.Machine

/-- 6xnn, R75: `V[x] <- nn`. -/
def execLdImm (x : Reg) (nn : Byte) (s : State) : Result State := .next (s.setV x nn)

/-- 7xnn, R76: `V[x] <- V[x] +_8 nn`; VF is not written as a flag. -/
def execAddImm (x : Reg) (nn : Byte) (s : State) : Result State := .next (s.setV x (s.getV x + nn))

/-- 8xy0, R77: `V[x] <- V[y]`. -/
def execLdReg (x y : Reg) (s : State) : Result State := .next (s.setV x (s.getV y))

/-- 8xy1, R78: `V[x] <- V[x] | V[y]`; VF unchanged (D5, log 6). -/
def execOr (x y : Reg) (s : State) : Result State := .next (s.setV x (s.getV x ||| s.getV y))

/-- 8xy2, R79: `V[x] <- V[x] & V[y]`; VF unchanged (D5, log 6). -/
def execAnd (x y : Reg) (s : State) : Result State := .next (s.setV x (s.getV x &&& s.getV y))

/-- 8xy3, R80: `V[x] <- V[x] ^ V[y]`; VF unchanged (D5, log 6). -/
def execXor (x y : Reg) (s : State) : Result State := .next (s.setV x (s.getV x ^^^ s.getV y))

/-- 8xy4, R81: the sum modulo 256, and the carry. -/
def execAddReg (x y : Reg) (s : State) : Result State :=
  .next (writeResultAndFlag x (s.getV x + s.getV y) (carry (s.getV x) (s.getV y)) s)

/-- 8xy5, R82: `V[x] - V[y]` modulo 256, and NOT borrow. -/
def execSub (x y : Reg) (s : State) : Result State :=
  .next (writeResultAndFlag x (s.getV x - s.getV y) (notBorrow (s.getV x) (s.getV y)) s)

/-- 8xy6, R83: `V[x] >> 1`, and the old bit 0. The shift source is Vx; `y` is ignored. -/
def execShr (x _y : Reg) (s : State) : Result State :=
  .next (writeResultAndFlag x (s.getV x >>> 1) (shiftedOutRight (s.getV x)) s)

/-- 8xy7, R84: `V[y] - V[x]` modulo 256, and NOT borrow. -/
def execSubn (x y : Reg) (s : State) : Result State :=
  .next (writeResultAndFlag x (s.getV y - s.getV x) (notBorrow (s.getV y) (s.getV x)) s)

/-- 8xyE, R85: `V[x] << 1` modulo 256, and the old bit 7. The shift source is Vx; `y` is ignored. -/
def execShl (x _y : Reg) (s : State) : Result State :=
  .next (writeResultAndFlag x (s.getV x <<< 1) (shiftedOutLeft (s.getV x)) s)

/-- Cxnn, R86: `r <- draw RANDOM; V[x] <- r & nn`. FREE VALUE (D11, log 4). -/
def execRnd (x : Reg) (nn : Byte) (s : State) : Result State :=
  .next ((drawRandom s).2.setV x ((drawRandom s).1 &&& nn))

end Sys2Proof.Machine
end

