-- ==== Sys2Proof/Machine/Operands.lean ====
section
/-! DEFINITION. Operand forms (`spec/30_encoding.md` R54), the one data addressing mode (`spec/43_index_memory.md` R87),
the skip (`spec/41_control_flow.md` R63) and the decimal digits of a byte (R91, R92). -/

namespace Sys2Proof.Machine

/-- `zext_16(nnn)`: an address operand written to PC or I. -/
def zextAddr (nnn : Addr12) : Word := nnn.setWidth 16

/-- `zext_16(v)`: a register's value as an address offset (R72). -/
def zextByte (b : Byte) : Word := b.setWidth 16

/-- The effective address of the `k`-th byte an instruction touches: `I + k`, without wrap-around (R34, R87). -/
def State.dataAddress (s : State) (k : Nat) : Nat := s.i.toNat + k

/-- The register numbered `k` of a block transfer, `k` being 0..15. -/
def regOfNat (k : Nat) : Reg := Fin.ofNat 16 k

/-- `skip`: past exactly one further 2-byte word (R63). -/
def skip (s : State) : State := { s with pc := s.pc + 2#16 }

/-- `if c then skip`. -/
def skipIf (c : Bool) (s : State) : State := if c then skip s else s

/-- `k <- V[x]; if k > 15 then raise Unspecified(KeyIndexOutOfRange)`, and then go on with `key[k]` (R101, R102). -/
def withKey (x : Reg) (s : State) (f : Bool → Result State) : Result State :=
  if h : (s.getV x).toNat < 16 then f (s.key ⟨(s.getV x).toNat, h⟩)
  else raise (.unspecified .keyIndexOutOfRange) s

/-- The decimal digits of a byte: hundreds, tens, ones (R91). -/
def decimalDigits (b : Byte) : Byte × Byte × Byte :=
  (BitVec.ofNat 8 (b.toNat / 100), BitVec.ofNat 8 (b.toNat / 10 % 10), BitVec.ofNat 8 (b.toNat % 10))

/-! ## Double dabble, the algorithm the source names for Fx33 (R92) -/

/-- The correction of one digit: add 3 to a digit of 5 or more. -/
def dabbleDigit (d : Nibble) : Nibble := if 5 ≤ d.toNat then d + 3#4 else d

/-- One of the eight iterations on the 20-bit scratch value: correct the three digits, then shift left by one. -/
def dabbleStep (s : BitVec 20) : BitVec 20 :=
  (dabbleDigit (s.extractLsb' 16 4) ++ (dabbleDigit (s.extractLsb' 12 4) ++
    (dabbleDigit (s.extractLsb' 8 4) ++ s.extractLsb' 0 8))) <<< 1

/-- `repeat count times`. -/
def dabbleSteps : Nat → BitVec 20 → BitVec 20
  | 0, s => s
  | count + 1, s => dabbleSteps count (dabbleStep s)

/-- The digits by double dabble. Only the result is normative, so no meaning uses this; the obligation
`DoubleDabbleGivesDecimalDigits` says that the result is the one Fx33 stores. -/
def doubleDabble (b : Byte) : Byte × Byte × Byte :=
  let s := dabbleSteps 8 (b.setWidth 20)
  ((s.extractLsb' 16 4).setWidth 8, (s.extractLsb' 12 4).setWidth 8, (s.extractLsb' 8 4).setWidth 8)

end Sys2Proof.Machine
end

