-- ==== Sys2Proof/Machine/ControlFlow.lean ====
section
/-! DEFINITION. Returns, jumps, calls and skips (`spec/41_control_flow.md`). PC already holds the instruction's address
plus 2 (R16). Every one of them writes PC and, for RET and CALL, the stack; nothing else (R64). -/

namespace Sys2Proof.Machine

/-- 00EE, R65: `PC <- pop()`. -/
def execRet (s : State) : Result State :=
  andThen (pop s) fun p => .next { p.2 with pc := p.1 }

/-- 1nnn, R66: `PC <- zext_16(nnn)`. -/
def execJp (nnn : Addr12) (s : State) : Result State := .next { s with pc := zextAddr nnn }

/-- 2nnn, R67: `push(PC)`, then `PC <- zext_16(nnn)`. -/
def execCall (nnn : Addr12) (s : State) : Result State :=
  andThen (push s.pc s) fun t => .next { t with pc := zextAddr nnn }

/-- 3xnn, R68: `if V[x] = nn then skip`. -/
def execSeImm (x : Reg) (nn : Byte) (s : State) : Result State := .next (skipIf (s.getV x == nn) s)

/-- 4xnn, R69: `if V[x] != nn then skip`. -/
def execSneImm (x : Reg) (nn : Byte) (s : State) : Result State := .next (skipIf (s.getV x != nn) s)

/-- 5xy0, R70: `if V[x] = V[y] then skip`. -/
def execSeReg (x y : Reg) (s : State) : Result State := .next (skipIf (s.getV x == s.getV y) s)

/-- 9xy0, R71: `if V[x] != V[y] then skip`. -/
def execSneReg (x y : Reg) (s : State) : Result State := .next (skipIf (s.getV x != s.getV y) s)

/-- Bnnn, R72: `PC <- zext_16(nnn) + zext_16(V[0])`, always V0, not masked to 12 bits. -/
def execJpV0 (nnn : Addr12) (s : State) : Result State :=
  .next { s with pc := zextAddr nnn + zextByte (s.getV regV0) }

end Sys2Proof.Machine
end

