-- ==== Sys2Proof/Machine/Display.lean ====
section
/-! DEFINITION. Clearing the framebuffer and drawing sprites (`spec/44_display.md`). -/

namespace Sys2Proof.Machine

/-- 00E0, R95: every pixel off; VF is not written. -/
def execCls (s : State) : Result State := .next { s with fb := Framebuffer.clear }

/-- The column a sprite bit lands on: `(ox + b) mod 64` (R98). -/
def spriteColumn (ox : Byte) (b : Nat) : Fin 64 := Fin.ofNat 64 (ox.toNat + b)

/-- The row a sprite row lands on: `(oy + r) mod 32` (R98). -/
def spriteRow (oy : Byte) (r : Nat) : Fin 32 := Fin.ofNat 32 (oy.toNat + r)

/-- Bit `b` of a sprite row, most significant first: `b = 0` is bit 7 (R96). -/
def spriteBit (row : Byte) (b : Nat) : Bool := row.getLsbD (7 - b)

/-- One bit of a sprite row: if set, OR the pixel into the collision flag, then toggle it (R96, R97). -/
def plotBit (ox oy row : Byte) (r b : Nat) (p : Framebuffer × Bool) : Framebuffer × Bool :=
  if spriteBit row b then
    (Framebuffer.toggle p.1 (spriteColumn ox b) (spriteRow oy r),
      p.2 || Framebuffer.get p.1 (spriteColumn ox b) (spriteRow oy r))
  else p

/-- The first `count` bits of a sprite row, in ascending order. -/
def plotBits (ox oy row : Byte) (r : Nat) : Nat → Framebuffer × Bool → Framebuffer × Bool
  | 0, p => p
  | count + 1, p => plotBit ox oy row r count (plotBits ox oy row r count p)

/-- Row `r` of a draw: read its byte at `I + r`, then plot its 8 bits. -/
def drawRow (ox oy : Byte) (r : Nat) (p : State × Bool) : Result (State × Bool) :=
  andThen (memRead (p.1.dataAddress r) p.1) fun row =>
  .next ({ p.1 with fb := (plotBits ox oy row r 8 (p.1.fb, p.2)).1 }, (plotBits ox oy row r 8 (p.1.fb, p.2)).2)

/-- Dxyn, R96: the origin is read before anything is written (R100); `n` rows in ascending order; then VF is the
collision flag. A row that cannot be read ends the draw with the earlier rows' toggles standing and VF not written. -/
def execDrw (x y : Reg) (n : Nibble) (s : State) : Result State :=
  andThen (forEach n.toNat 0 (drawRow (s.getV x) (s.getV y)) (s, false)) fun p =>
  .next (p.1.setV regVF (flagByte p.2))

end Sys2Proof.Machine
end

