-- ==== Sys2Proof/Machine/IndexMemory.lean ====
section
/-! DEFINITION. The index register and memory transfer (`spec/43_index_memory.md`). Accesses go in ascending address
order, and those before a failing one stand (R45, R119). No access changes I (R15, R87). -/

namespace Sys2Proof.Machine

/-- Annn, R88: `I <- zext_16(nnn)`. -/
def execLdI (nnn : Addr12) (s : State) : Result State := .next { s with i := zextAddr nnn }

/-- Fx1E, R89: `I <- I + V[x]`; a sum above 0xFFFF raises `Unspecified(IndexOverflow)` (D8, log 9). VF is not written. -/
def execAddIVx (x : Reg) (s : State) : Result State :=
  if 0xFFFF < s.i.toNat + (s.getV x).toNat then raise (.unspecified .indexOverflow) s
  else .next { s with i := BitVec.ofNat 16 (s.i.toNat + (s.getV x).toNat) }

/-- Fx29, R90: `I <- FONT_BASE + 5 * V[x]`, the whole of V[x], at most 5291. -/
def execLdFVx (x : Reg) (s : State) : Result State :=
  .next { s with i := BitVec.ofNat 16 (s.config.fontBase.val + 5 * (s.getV x).toNat) }

/-- Fx33, R91: the three decimal digits of `V[x]` to `mem[I]`, `mem[I + 1]`, `mem[I + 2]`. -/
def execLdBVx (x : Reg) (s : State) : Result State :=
  andThen (memWrite (s.dataAddress 0) (decimalDigits (s.getV x)).1 s) fun t =>
  andThen (memWrite (s.dataAddress 1) (decimalDigits (s.getV x)).2.1 t) fun u =>
  memWrite (s.dataAddress 2) (decimalDigits (s.getV x)).2.2 u

/-- Fx55, R93: `for i in 0 .. x: MemWrite(I + i, 1, V[i])`. -/
def execLdMemVx (x : Reg) (s : State) : Result State :=
  forEach (x.val + 1) 0 (fun k t => memWrite (t.dataAddress k) (t.getV (regOfNat k)) t) s

/-- Fx65, R94: `for i in 0 .. x: V[i] <- MemRead(I + i, 1)`. -/
def execLdVxMem (x : Reg) (s : State) : Result State :=
  forEach (x.val + 1) 0
    (fun k t => andThen (memRead (t.dataAddress k) t) fun b => .next (t.setV (regOfNat k) b)) s

end Sys2Proof.Machine
end

