-- ==== Sys2Proof/Machine/KeypadTimers.lean ====
section
/-! DEFINITION. The keypad and timer instructions (`spec/45_timers_keypad.md`). -/

namespace Sys2Proof.Machine

/-- Ex9E, R101: skip if `key[V[x]]`. -/
def execSkp (x : Reg) (s : State) : Result State := withKey x s fun pressed => .next (skipIf pressed s)

/-- ExA1, R102: skip if not `key[V[x]]`. -/
def execSknp (x : Reg) (s : State) : Result State := withKey x s fun pressed => .next (skipIf (!pressed) s)

/-- Fx07, R105: `V[x] <- DT`. -/
def execLdVxDt (x : Reg) (s : State) : Result State := .next (s.setV x s.dt)

/-- Fx0A, R103: with no key pressed, `PC <- PC -_16 2`, so that the next step fetches it again (R104); else `V[x]` is a
draw among the pressed keys. FREE VALUE (D10, log 5). -/
def execLdVxK (x : Reg) (s : State) : Result State :=
  match s.pressedKeys with
  | [] => .next { s with pc := s.pc - 2#16 }
  | k :: ks =>
    .next ((drawKeyChoice (k :: ks) s).2.setV x (BitVec.ofNat 8 (drawKeyChoice (k :: ks) s).1.val))

/-- Fx15, R106: `DT <- V[x]`. -/
def execLdDtVx (x : Reg) (s : State) : Result State := .next { s with dt := s.getV x }

/-- Fx18, R107: `ST <- V[x]`. -/
def execLdStVx (x : Reg) (s : State) : Result State := .next { s with st := s.getV x }

end Sys2Proof.Machine
end

