-- ==== Sys2Proof/Decode.lean ====
section
/-! DEFINITION. Decoding and encoding (`spec/30_encoding.md` R52 to R61), and the opcode map of R56 as data. -/

namespace Sys2Proof

/-! ## The fields of a word (R53) -/

/-- `f`, bits 15:12: the opcode family. -/
def fieldF (w : Word) : Nibble := w.extractLsb' 12 4
/-- `x`, bits 11:8, as a register index. -/
def fieldX (w : Word) : Reg := (w.extractLsb' 8 4).toFin
/-- `y`, bits 7:4, as a register index. -/
def fieldY (w : Word) : Reg := (w.extractLsb' 4 4).toFin
/-- `n`, bits 3:0. -/
def fieldN (w : Word) : Nibble := w.extractLsb' 0 4
/-- `nn`, bits 7:0. -/
def fieldNN (w : Word) : Byte := w.extractLsb' 0 8
/-- `nnn`, bits 11:0. -/
def fieldNNN (w : Word) : Addr12 := w.extractLsb' 0 12

/-- Why some bytes give no instruction. -/
inductive DecodeError where
  /-- Fewer than the two bytes every instruction has (R61). -/
  | tooShort
  /-- The word matches no row of the opcode map (R58, R59). -/
  | opcodeNotImplemented (w : Word)
  deriving DecidableEq, Repr

/-! ## Dispatch (R55): one match on `f`, families 0x0, 0x8, 0xE and 0xF split further, 0x5 and 0x9 requiring `n = 0` -/

/-- Family 0x0 is split by the whole word (R57). -/
def decodeFamily0 (w : Word) : Option Instr :=
  if w = 0x00E0#16 then some .cls
  else if w = 0x00EE#16 then some .ret
  else none

/-- Family 0x8 is split by `n`. -/
def decodeFamily8 (w : Word) : Option Instr :=
  match (fieldN w).toNat with
  | 0x0 => some (.ldReg (fieldX w) (fieldY w))
  | 0x1 => some (.or (fieldX w) (fieldY w))
  | 0x2 => some (.and (fieldX w) (fieldY w))
  | 0x3 => some (.xor (fieldX w) (fieldY w))
  | 0x4 => some (.addReg (fieldX w) (fieldY w))
  | 0x5 => some (.sub (fieldX w) (fieldY w))
  | 0x6 => some (.shr (fieldX w) (fieldY w))
  | 0x7 => some (.subn (fieldX w) (fieldY w))
  | 0xE => some (.shl (fieldX w) (fieldY w))
  | _ => none

/-- Family 0xE is split by `nn`. -/
def decodeFamilyE (w : Word) : Option Instr :=
  match (fieldNN w).toNat with
  | 0x9E => some (.skp (fieldX w))
  | 0xA1 => some (.sknp (fieldX w))
  | _ => none

/-- Family 0xF is split by `nn`. -/
def decodeFamilyF (w : Word) : Option Instr :=
  match (fieldNN w).toNat with
  | 0x07 => some (.ldVxDt (fieldX w))
  | 0x0A => some (.ldVxK (fieldX w))
  | 0x15 => some (.ldDtVx (fieldX w))
  | 0x18 => some (.ldStVx (fieldX w))
  | 0x1E => some (.addIVx (fieldX w))
  | 0x29 => some (.ldFVx (fieldX w))
  | 0x33 => some (.ldBVx (fieldX w))
  | 0x55 => some (.ldMemVx (fieldX w))
  | 0x65 => some (.ldVxMem (fieldX w))
  | _ => none

/-- The instruction a word names, if any (R55, R56, R57). -/
def decodeWord? (w : Word) : Option Instr :=
  match (fieldF w).toNat with
  | 0x0 => decodeFamily0 w
  | 0x1 => some (.jp (fieldNNN w))
  | 0x2 => some (.call (fieldNNN w))
  | 0x3 => some (.seImm (fieldX w) (fieldNN w))
  | 0x4 => some (.sneImm (fieldX w) (fieldNN w))
  | 0x5 => if fieldN w = 0x0#4 then some (.seReg (fieldX w) (fieldY w)) else none
  | 0x6 => some (.ldImm (fieldX w) (fieldNN w))
  | 0x7 => some (.addImm (fieldX w) (fieldNN w))
  | 0x8 => decodeFamily8 w
  | 0x9 => if fieldN w = 0x0#4 then some (.sneReg (fieldX w) (fieldY w)) else none
  | 0xA => some (.ldI (fieldNNN w))
  | 0xB => some (.jpV0 (fieldNNN w))
  | 0xC => some (.rnd (fieldX w) (fieldNN w))
  | 0xD => some (.drw (fieldX w) (fieldY w) (fieldN w))
  | 0xE => decodeFamilyE w
  | 0xF => decodeFamilyF w
  | _ => none

/-- `decodeWord?`, rejecting by name (R58). -/
def decodeWord (w : Word) : Except DecodeError Instr :=
  match decodeWord? w with
  | some i => .ok i
  | none => .error (.opcodeNotImplemented w)

/-- The word two bytes make: the byte at the lower address is the high byte (`spec/20_memory.md` R43). -/
def wordOfBytes (hi lo : Byte) : Word := hi ++ lo

/-- The high byte of a word, stored at the lower address (R43). -/
def highByte (w : Word) : Byte := w.extractLsb' 8 8

/-- The low byte of a word, stored at the higher address (R43). -/
def lowByte (w : Word) : Byte := w.extractLsb' 0 8

/-- Decode from bytes: every instruction takes exactly two (R61); the rest is handed back. -/
def decode : List Byte → Except DecodeError (Instr × List Byte)
  | hi :: lo :: rest =>
    match decodeWord (wordOfBytes hi lo) with
    | .ok i => .ok (i, rest)
    | .error e => .error e
  | _ => .error .tooShort

/-! ## Encoding, from the patterns of R56 -/

/-- A word of pattern `f nnn`. -/
def wordFNNN (f : Nibble) (nnn : Addr12) : Word := f ++ nnn

/-- A word of pattern `f x nn`. -/
def wordFXNN (f : Nibble) (x : Reg) (nn : Byte) : Word := wordFNNN f (BitVec.ofFin x ++ nn)

/-- A word of pattern `f x y n`. -/
def wordFXYN (f : Nibble) (x y : Reg) (n : Nibble) : Word := wordFXNN f x (BitVec.ofFin y ++ n)

/-- The word of an instruction (R56). -/
def encodeWord : Instr → Word
  | .cls => 0x00E0#16
  | .ret => 0x00EE#16
  | .jp nnn => wordFNNN 0x1#4 nnn
  | .call nnn => wordFNNN 0x2#4 nnn
  | .seImm x nn => wordFXNN 0x3#4 x nn
  | .sneImm x nn => wordFXNN 0x4#4 x nn
  | .seReg x y => wordFXYN 0x5#4 x y 0x0#4
  | .ldImm x nn => wordFXNN 0x6#4 x nn
  | .addImm x nn => wordFXNN 0x7#4 x nn
  | .ldReg x y => wordFXYN 0x8#4 x y 0x0#4
  | .or x y => wordFXYN 0x8#4 x y 0x1#4
  | .and x y => wordFXYN 0x8#4 x y 0x2#4
  | .xor x y => wordFXYN 0x8#4 x y 0x3#4
  | .addReg x y => wordFXYN 0x8#4 x y 0x4#4
  | .sub x y => wordFXYN 0x8#4 x y 0x5#4
  | .shr x y => wordFXYN 0x8#4 x y 0x6#4
  | .subn x y => wordFXYN 0x8#4 x y 0x7#4
  | .shl x y => wordFXYN 0x8#4 x y 0xE#4
  | .sneReg x y => wordFXYN 0x9#4 x y 0x0#4
  | .ldI nnn => wordFNNN 0xA#4 nnn
  | .jpV0 nnn => wordFNNN 0xB#4 nnn
  | .rnd x nn => wordFXNN 0xC#4 x nn
  | .drw x y n => wordFXYN 0xD#4 x y n
  | .skp x => wordFXNN 0xE#4 x 0x9E#8
  | .sknp x => wordFXNN 0xE#4 x 0xA1#8
  | .ldVxDt x => wordFXNN 0xF#4 x 0x07#8
  | .ldVxK x => wordFXNN 0xF#4 x 0x0A#8
  | .ldDtVx x => wordFXNN 0xF#4 x 0x15#8
  | .ldStVx x => wordFXNN 0xF#4 x 0x18#8
  | .addIVx x => wordFXNN 0xF#4 x 0x1E#8
  | .ldFVx x => wordFXNN 0xF#4 x 0x29#8
  | .ldBVx x => wordFXNN 0xF#4 x 0x33#8
  | .ldMemVx x => wordFXNN 0xF#4 x 0x55#8
  | .ldVxMem x => wordFXNN 0xF#4 x 0x65#8

/-- The two bytes of an instruction, in memory order (R52, R43). -/
def encode (i : Instr) : List Byte := [highByte (encodeWord i), lowByte (encodeWord i)]

/-! ## The opcode map as data (R56, `spec/opcode_table.json`) -/

/-- The row of an instruction: the word's fixed bits and their value. -/
def opcodeRow : Instr → Word × Word
  | .cls => (0xFFFF#16, 0x00E0#16)
  | .ret => (0xFFFF#16, 0x00EE#16)
  | .jp _ => (0xF000#16, 0x1000#16)
  | .call _ => (0xF000#16, 0x2000#16)
  | .seImm _ _ => (0xF000#16, 0x3000#16)
  | .sneImm _ _ => (0xF000#16, 0x4000#16)
  | .seReg _ _ => (0xF00F#16, 0x5000#16)
  | .ldImm _ _ => (0xF000#16, 0x6000#16)
  | .addImm _ _ => (0xF000#16, 0x7000#16)
  | .ldReg _ _ => (0xF00F#16, 0x8000#16)
  | .or _ _ => (0xF00F#16, 0x8001#16)
  | .and _ _ => (0xF00F#16, 0x8002#16)
  | .xor _ _ => (0xF00F#16, 0x8003#16)
  | .addReg _ _ => (0xF00F#16, 0x8004#16)
  | .sub _ _ => (0xF00F#16, 0x8005#16)
  | .shr _ _ => (0xF00F#16, 0x8006#16)
  | .subn _ _ => (0xF00F#16, 0x8007#16)
  | .shl _ _ => (0xF00F#16, 0x800E#16)
  | .sneReg _ _ => (0xF00F#16, 0x9000#16)
  | .ldI _ => (0xF000#16, 0xA000#16)
  | .jpV0 _ => (0xF000#16, 0xB000#16)
  | .rnd _ _ => (0xF000#16, 0xC000#16)
  | .drw _ _ _ => (0xF000#16, 0xD000#16)
  | .skp _ => (0xF0FF#16, 0xE09E#16)
  | .sknp _ => (0xF0FF#16, 0xE0A1#16)
  | .ldVxDt _ => (0xF0FF#16, 0xF007#16)
  | .ldVxK _ => (0xF0FF#16, 0xF00A#16)
  | .ldDtVx _ => (0xF0FF#16, 0xF015#16)
  | .ldStVx _ => (0xF0FF#16, 0xF018#16)
  | .addIVx _ => (0xF0FF#16, 0xF01E#16)
  | .ldFVx _ => (0xF0FF#16, 0xF029#16)
  | .ldBVx _ => (0xF0FF#16, 0xF033#16)
  | .ldMemVx _ => (0xF0FF#16, 0xF055#16)
  | .ldVxMem _ => (0xF0FF#16, 0xF065#16)

/-- Rows 1 to 23 and 24 to 34 of R56 as (mask, match) pairs, in the map's order. -/
def opcodeTable : List (Word × Word) :=
  [(0xFFFF#16, 0x00E0#16), (0xFFFF#16, 0x00EE#16), (0xF000#16, 0x1000#16), (0xF000#16, 0x2000#16),
   (0xF000#16, 0x3000#16), (0xF000#16, 0x4000#16), (0xF00F#16, 0x5000#16), (0xF000#16, 0x6000#16),
   (0xF000#16, 0x7000#16), (0xF00F#16, 0x8000#16), (0xF00F#16, 0x8001#16), (0xF00F#16, 0x8002#16)] ++
  [(0xF00F#16, 0x8003#16), (0xF00F#16, 0x8004#16), (0xF00F#16, 0x8005#16), (0xF00F#16, 0x8006#16),
   (0xF00F#16, 0x8007#16), (0xF00F#16, 0x800E#16), (0xF00F#16, 0x9000#16), (0xF000#16, 0xA000#16),
   (0xF000#16, 0xB000#16), (0xF000#16, 0xC000#16), (0xF000#16, 0xD000#16)] ++
  [(0xF0FF#16, 0xE09E#16), (0xF0FF#16, 0xE0A1#16), (0xF0FF#16, 0xF007#16), (0xF0FF#16, 0xF00A#16),
   (0xF0FF#16, 0xF015#16), (0xF0FF#16, 0xF018#16), (0xF0FF#16, 0xF01E#16), (0xF0FF#16, 0xF029#16),
   (0xF0FF#16, 0xF033#16), (0xF0FF#16, 0xF055#16), (0xF0FF#16, 0xF065#16)]

/-- The word `w` matches a row of the map: `w & mask = match` (R56). -/
def matchesRow (w : Word) (row : Word × Word) : Bool := w &&& row.1 == row.2

/-- The instruction the decoder reads from a table word: `w`'s low `nbits` bits, the bits above them zero, laid out
high byte first (R43). -/
def decodeTableWord (nbits w : Nat) : Option Instr :=
  let word : Word := BitVec.ofNat 16 (w % 2 ^ nbits)
  match decode [highByte word, lowByte word] with
  | .ok (i, _) => some i
  | .error _ => none

end Sys2Proof
end

