-- ==== Sys2Proof/Machine/Fetch.lean ====
section
/-! DEFINITION. Instruction fetch (`spec/20_memory.md` R42, R43, R44) and what comes before execution in a step
(`spec/60_exceptions.md` R108, R116, R118, R120). -/

namespace Sys2Proof.Machine

/-- `Fetch()` (R42): the big-endian word at PC, and the state with PC advanced by 2. A failed fetch leaves PC unchanged
and reports the first byte of the pair outside memory (D2). -/
def fetch (s : State) : Result (Word × State) :=
  if memSize ≤ s.pc.toNat + 1 then
    raise (.addressOutOfBounds (if memSize ≤ s.pc.toNat then s.pc.toNat else s.pc.toNat + 1) memSize) s
  else
    andThen (memRead s.pc.toNat s) fun hi =>
    andThen (memRead (s.pc.toNat + 1) s) fun lo =>
    .next (wordOfBytes hi lo, { s with pc := s.pc + 2#16 })

/-- Fetch, decode and dispatch (R108): the instruction to execute and the state it executes in. A word that names no
instruction raises `OpcodeNotImplemented`, PC already advanced (R116). A faulted machine gets no step (R120). -/
def fetchInstr (s : State) : Result (Instr × State) :=
  match s.fault with
  | some e => .refused (.stepAfterFault e)
  | none =>
    andThen (fetch s) fun p =>
    match decodeWord p.1 with
    | .ok i => .next (i, p.2)
    | .error _ => raise (.opcodeNotImplemented p.1) p.2

/-- The state with a word stored where the next fetch reads it, high byte first (R43). Nothing else changes. -/
def storeFetchWord (s : State) (w : Word) : State :=
  (s.setByte s.pc.toNat (highByte w)).setByte (s.pc.toNat + 1) (lowByte w)

end Sys2Proof.Machine
end

