-- ==== Sys2Proof/Machine/Step.lean ====
section
/-! DEFINITION. One step of the machine (`spec/60_exceptions.md` R108), and the placing of a word where the next step
fetches. -/

namespace Sys2Proof.Machine

/-- `step()`: one fetch, decode and execute. Any error is the step's, unchanged (R108, R121). -/
def step (s : State) : Host.Outcome State Fault Refusal :=
  andThen (fetchInstr s) fun p => exec p.1 p.2

/-- The state with the table word `w` (its low `nbits` bits, the bits above zero) stored at PC, where `step` fetches its
next instruction: what a `loadProgram` of that word leaves in memory (log 16). -/
def State.withFetchWord (s : State) (nbits w : Nat) : State := storeFetchWord s (BitVec.ofNat 16 (w % 2 ^ nbits))

end Sys2Proof.Machine
end

