-- ==== Sys2Proof/Machine/Controller.lean ====
section
/-! DEFINITION. The controller and the host interface (`spec/60_exceptions.md` R109 to R111, R129 to R131;
`spec/70_reset_and_hazards.md` R133 to R138; `spec/20_memory.md` R38 to R41). The host's calls act between steps only
(R130), each to completion. -/

namespace Sys2Proof.Machine

/-! ## Timers and sound -/

/-- One timer's decrement: by one when positive, never below zero (R110). -/
def decrementTimer (b : Byte) : Byte := if b = 0#8 then 0#8 else b - 1#8

/-- The timer decrement at the end of a successful tick (R110). -/
def decrementTimers (s : State) : State := { s with dt := decrementTimer s.dt, st := decrementTimer s.st }

/-- `shouldPlaySound()` (R111): the sound output, on while ST > 0. -/
def soundOn (s : State) : Bool := decide (0 < s.st.toNat)

/-! ## Ticks -/

/-- `repeat count times: step()`, ending at the first error (R109). -/
def runSteps : Nat → State → Result State
  | 0, s => .next s
  | count + 1, s => andThen (step s) (runSteps count)

/-- `tick()` (R109): `STEPS_PER_TICK` steps, then the timer decrement. A failing step's error is the tick's, and the
timers are then not decremented. A faulted machine gets no tick (R120). -/
def tick (s : State) : Result State :=
  match s.fault with
  | some e => .refused (.stepAfterFault e)
  | none => andThen (runSteps s.config.stepsPerTick s) fun t => .next (decrementTimers t)

/-! ## Construction, reset and loading -/

/-- Construction (R134): refused where the font does not fit (D21). `FONT` and `FLAG_WRITE_ORDER` are the build's. -/
def construct (programBase : Word) (fontBase stepsPerTick : Nat) (font : Vector Byte fontSize)
    (order : FlagWriteOrder) : Result State :=
  if h : fontBase < memSize - fontSize + 1 then
    .next (State.constructed { programBase, fontBase := ⟨fontBase, h⟩, stepsPerTick, font, flagWriteOrder := order })
  else .refused (.fontDoesNotFit fontBase)

/-- Memory reset (R41): every byte 0, then `FONT`, then the program image. The first two are what unlisted addresses
read as. An image that does not fit is never held (D22), and a `load` of one would write nothing. -/
def resetMemory (c : Config) (image : List Byte) : Memory :=
  if blockFits c.programBase.toNat image.length then Memory.writeBlock c [] c.programBase.toNat image else []

/-- `reset()` (R133): everything as at construction but the keypad, the program image and the configuration, which it
keeps; the image is replayed into memory. It cannot fail, may be called in any state, and alone clears the fault
status. The model's own count of draws goes on (log 4). -/
def hostReset (s : State) : State :=
  { State.constructed s.config with
    keys := s.keys
    programImage := s.programImage
    mem := resetMemory s.config s.programImage
    draws := s.draws }

/-- `setInput(keys)` (R23): all sixteen keys at once. -/
def setInput (keys : Keypad) (s : State) : State := { s with keys }

/-- `loadProgram(bytes)` (R40, R137): record the image and load it at `PROGRAM_BASE`; nothing else changes. An image that
does not fit is refused as a host action (D22). -/
def loadProgram (bytes : List Byte) (s : State) : Result State :=
  if blockFits s.config.programBase.toNat bytes.length then
    load s.config.programBase.toNat bytes { s with programImage := bytes }
  else .refused (.programDoesNotFit s.config.programBase.toNat bytes.length)

/-! ## The host's calls as one type (R129) -/

/-- The host's calls that can change the block. Reads (`soundOn`, `State.pixel`, any field of State) change nothing. -/
inductive HostCall where
  | step
  | tick
  | reset
  | setInput (keys : Keypad)
  | loadProgram (bytes : List Byte)
  deriving DecidableEq, Repr

/-- What a host call does. -/
def hostCall (c : HostCall) (s : State) : Result State :=
  match c with
  | .step => step s
  | .tick => tick s
  | .reset => .next (hostReset s)
  | .setInput keys => .next (setInput keys s)
  | .loadProgram bytes => loadProgram bytes s

/-- The host's calls one after another, ending at the first that does not go on. -/
def runCalls : List HostCall → State → Result State
  | [], s => .next s
  | c :: calls, s => andThen (hostCall c s) (runCalls calls)

end Sys2Proof.Machine
end

