-- ==== Sys2Proof/Safety.lean ====
section
/-! DEFINITION. What claims are stated in terms of: the parts of the state and what a change leaves alone, the invariants,
the writer and error tables of the spec (`spec/10_state.md` R14, R15, R22; `spec/60_exceptions.md` R112), and the waiting
and ended conditions (R29, R132). -/

namespace Sys2Proof.Machine

/-! ## Parts of the state, and frames -/

/-- One readable part of the state: the table at the head of `spec/10_state.md`, the fault status and the count of draws. -/
inductive Part where
  | reg (r : Reg)
  | index
  | counter
  | stack
  | delayTimer
  | soundTimer
  | keypad
  | pixel (px : Fin 64) (py : Fin 32)
  | byte (a : Nat)
  | image
  | configuration
  | faultStatus
  | draws
  deriving DecidableEq, Repr

/-- Two states read the same at a part. A byte of memory is compared through the model's read of one byte. -/
def agreeAt (s t : State) : Part → Prop
  | .reg r => t.getV r = s.getV r
  | .index => t.i = s.i
  | .counter => t.pc = s.pc
  | .stack => t.stack = s.stack
  | .delayTimer => t.dt = s.dt
  | .soundTimer => t.st = s.st
  | .keypad => t.keys = s.keys
  | .pixel px py => t.pixel px py = s.pixel px py
  | .byte a => t.byteAt a = s.byteAt a
  | .image => t.programImage = s.programImage
  | .configuration => t.config = s.config
  | .faultStatus => t.fault = s.fault
  | .draws => t.draws = s.draws

/-- The frame: from `s` to `t` nothing changes outside the named parts. -/
def changesOnly (parts : Part → Prop) (s t : State) : Prop := ∀ p, ¬ parts p → agreeAt s t p

/-- The parts an instruction may write, as the rules of files 41 to 45 and the table of R14 say: the destination
registers, VF for a flag writer, PC for a control transfer or a skip, the stack for CALL and RET, I for Annn, Fx1E and
Fx29, the timer for Fx15 and Fx18, the pixels for 00E0 and Dxyn, the bytes from `I` for Fx33 and Fx55, and the count of
draws for the two instructions that draw. -/
def mayWrite (i : Instr) (s : State) : Part → Prop :=
  match i with
  | .cls => fun p => ∃ px py, p = .pixel px py
  | .ret => fun p => p = .counter ∨ p = .stack
  | .jp _ => fun p => p = .counter
  | .call _ => fun p => p = .counter ∨ p = .stack
  | .seImm _ _ => fun p => p = .counter
  | .sneImm _ _ => fun p => p = .counter
  | .seReg _ _ => fun p => p = .counter
  | .ldImm x _ => fun p => p = .reg x
  | .addImm x _ => fun p => p = .reg x
  | .ldReg x _ => fun p => p = .reg x
  | .or x _ => fun p => p = .reg x
  | .and x _ => fun p => p = .reg x
  | .xor x _ => fun p => p = .reg x
  | .addReg x _ => fun p => p = .reg x ∨ p = .reg regVF
  | .sub x _ => fun p => p = .reg x ∨ p = .reg regVF
  | .shr x _ => fun p => p = .reg x ∨ p = .reg regVF
  | .subn x _ => fun p => p = .reg x ∨ p = .reg regVF
  | .shl x _ => fun p => p = .reg x ∨ p = .reg regVF
  | .sneReg _ _ => fun p => p = .counter
  | .ldI _ => fun p => p = .index
  | .jpV0 _ => fun p => p = .counter
  | .rnd x _ => fun p => p = .reg x ∨ p = .draws
  | .drw _ _ _ => fun p => (∃ px py, p = .pixel px py) ∨ p = .reg regVF
  | .skp _ => fun p => p = .counter
  | .sknp _ => fun p => p = .counter
  | .ldVxDt x => fun p => p = .reg x
  | .ldVxK x => fun p => p = .reg x ∨ p = .draws ∨ p = .counter
  | .ldDtVx _ => fun p => p = .delayTimer
  | .ldStVx _ => fun p => p = .soundTimer
  | .addIVx _ => fun p => p = .index
  | .ldFVx _ => fun p => p = .index
  | .ldBVx _ => fun p => ∃ k, k < 3 ∧ p = .byte (s.dataAddress k)
  | .ldMemVx x => fun p => ∃ k, k ≤ x.val ∧ p = .byte (s.dataAddress k)
  | .ldVxMem x => fun p => ∃ r : Reg, r ≤ x ∧ p = .reg r

/-- The outcome of a flag-writing ALU instruction, its result and its flag given as numbers: `V[x]` holds the result, VF
the flag, nothing else changes. Where `x` is VF itself, the write order decides, and the decided one leaves the flag
(R74, D4, log 3). -/
def resultAndFlag (x : Reg) (result flag : Nat) (s t : State) : Prop :=
  (x ≠ regVF → (t.getV x).toNat = result) ∧
  (t.getV regVF).toNat = (if x = regVF ∧ s.config.flagWriteOrder = .resultLast then result else flag) ∧
  changesOnly (fun p => p = .reg x ∨ p = .reg regVF) s t

/-- Every word with the fixed bits of a row of the opcode map decodes to the instruction its fields give (R55, R56). -/
def rowDecodes (mask value : Word) (f : Word → Instr) : Prop := ∀ w, w &&& mask = value → decodeWord w = .ok (f w)

/-- The decimal digits of a number below 1000, hundreds first (R91). -/
def digitAt (v : Nat) : Nat → Nat
  | 0 => v / 100
  | 1 => v / 10 % 10
  | _ => v % 10

/-- The part of a block of bytes from `I` that lies inside memory: how many of them come before the first address at or
above 4096 (R113). -/
def bytesInside (s : State) : Nat := memSize - s.i.toNat

/-- Row `r` below `rows`, bit `b` of a sprite at `I`, drawn from the origin in `V[x]`, `V[y]`, is set and lands on the
pixel, columns and rows wrapping (R96, R98). -/
def spriteCovers (s : State) (x y : Reg) (rows : Nat) (px : Fin 64) (py : Fin 32) : Prop :=
  ∃ r b : Nat, r < rows ∧ b < 8 ∧ (s.byteAt (s.i.toNat + r)).getLsbD (7 - b) = true ∧
    px.val = ((s.getV x).toNat + b) % 64 ∧ py.val = ((s.getV y).toNat + r) % 32

/-- The screen after a sprite's first `rows` rows: the old one XOR the sprite (R99). -/
def spriteXored (x y : Reg) (rows : Nat) (s t : State) : Prop :=
  ∀ px py, (spriteCovers s x y rows px py → t.pixel px py = !s.pixel px py) ∧
    (¬ spriteCovers s x y rows px py → t.pixel px py = s.pixel px py)

/-! ## Errors -/

/-- The error kinds each instruction can raise (R112's table and the rules of files 41 to 45). -/
def mayRaise (i : Instr) : Error → Prop :=
  match i with
  | .ret => fun e => e = .stackUnderflow
  | .call _ => fun e => e = .stackOverflow
  | .drw _ _ _ | .ldBVx _ | .ldMemVx _ | .ldVxMem _ => fun e => ∃ a, memSize ≤ a ∧ e = .addressOutOfBounds a memSize
  | .addIVx _ => fun e => e = .unspecified .indexOverflow
  | .skp _ | .sknp _ => fun e => e = .unspecified .keyIndexOutOfRange
  | .cls | .jp _ | .seImm _ _ | .sneImm _ _ | .seReg _ _ | .ldImm _ _ | .addImm _ _ | .ldReg _ _ | .or _ _ | .and _ _
  | .xor _ _ | .addReg _ _ | .sub _ _ | .shr _ _ | .subn _ _ | .shl _ _ | .sneReg _ _ | .ldI _ | .jpV0 _ | .rnd _ _
  | .ldVxDt _ | .ldVxK _ | .ldDtVx _ | .ldStVx _ | .ldFVx _ => fun _ => False

/-- A stop with an error of which the state left differs from `s` in the named parts and the fault status only, and
records the error (R119, R120). -/
def stopsWith {α : Type} (r : Result α) (e : Error) (parts : Part → Prop) (s t : State) : Prop :=
  r = .fault (.raised e t) ∧ t.fault = some e ∧ changesOnly (fun p => parts p ∨ p = .faultStatus) s t

/-- Every state an outcome leaves, whether the machine goes on or stops with an error, satisfies `P`. -/
def leaves (P : State → Prop) : Result State → Prop
  | .next t => P t
  | .fault (.raised _ t) => P t
  | .refused _ => True

/-- The outcome with its state changed by `f`, stops included. -/
def mapOutcome (f : State → State) : Result State → Result State
  | .next t => .next (f t)
  | .fault (.raised e t) => .fault (.raised e (f t))
  | .refused r => .refused r

/-! ## Invariants -/

/-- A state the machine's operations keep: memory in canonical form, at most 15 return addresses (R19), and a program
image that fits (D22). -/
abbrev State.wf (s : State) : Prop :=
  s.mem.wf s.config ∧ s.stack.length ≤ stackMaxDepth ∧
    blockFits s.config.programBase.toNat s.programImage.length = true

/-- Every return address is one some call pushed: at most 4096 (R17). -/
abbrev State.returnsBounded (s : State) : Prop := ∀ r ∈ s.stack, r.toNat ≤ memSize

/-! ## Running, waiting, ended -/

/-- The big-endian word at an address. -/
def State.wordAt (s : State) (a : Nat) : Word := wordOfBytes (s.byteAt a) (s.byteAt (a + 1))

/-- The machine waits for a key: PC points at an Fx0A word and no key is pressed (R29). -/
def State.waiting (s : State) : Prop :=
  s.fault = none ∧ s.pc.toNat + 1 < memSize ∧ s.wordAt s.pc.toNat &&& 0xF0FF#16 = 0xF00A#16 ∧
    ∀ k, s.key k = false

/-- The calls that go on with a run: steps, alone or in ticks, and the key input between them. A reset and a load begin
another run (log 14). -/
def HostCall.continuesRun : HostCall → Bool
  | .step | .tick | .setInput _ => true
  | .reset | .loadProgram _ => false

/-- `s` was reached from `start` by some number of successful steps (R132), driven by any calls that go on with a run. -/
def State.reachedFrom (s start : State) : Prop :=
  ∃ calls : List HostCall, calls.all HostCall.continuesRun = true ∧ runCalls calls start = .next s

/-- No fault, and PC points at a jump to itself: what R132 asks of the state alone. -/
def State.atSelfJump (s : State) : Prop :=
  s.fault = none ∧ s.pc.toNat ≤ 0xFFE ∧ (s.wordAt s.pc.toNat).toNat = 0x1000 + s.pc.toNat

/-- The run from `start` has ended in `s` (R132, D17, log 14): no fault, a jump to itself at PC, and reached by successful
steps. -/
def State.endedFrom (s start : State) : Prop := s.atSelfJump ∧ s.reachedFrom start

end Sys2Proof.Machine
end

