-- ==== Sys2Proof/Certificates/Slice0/Obligations.lean ====
section
/-! DEFINITION. The statements for the provers. Each docstring names the rule of `spec/` it formalises, or the sections it
is derived from with the decision (`spec/92_eei_decisions.md` D<n>) or log entry it rests on. -/

open Sys2Proof Sys2Proof.Machine

/-! ## Encoding -/

/-- R53: the six fields of a word, as numbers. Field extraction cannot fail. -/
def Obligations.FieldsOfWord : Prop :=
  ∀ w : Word,
    (fieldF w).toNat = w.toNat / 4096 ∧ (fieldX w).val = w.toNat / 256 % 16 ∧ (fieldY w).val = w.toNat / 16 % 16 ∧
    (fieldN w).toNat = w.toNat % 16 ∧ (fieldNN w).toNat = w.toNat % 256 ∧ (fieldNNN w).toNat = w.toNat % 4096

/-- Derived from `30_encoding.md` sections 1, 2 and 4: decoding an instruction's two bytes gives it back, whatever bytes
follow. Every instruction is well-formed by its type. -/
def Obligations.DecodeEncodeRoundTrip : Prop :=
  ∀ (i : Instr) (rest : List Byte), decode (encode i ++ rest) = .ok (i, rest)

/-- Derived from `30_encoding.md` section 2: a word that decodes is the word of its instruction, so no word has two
meanings and the decoder drops no bit. -/
def Obligations.EncodeDecodeRoundTrip : Prop :=
  ∀ (w : Word) (i : Instr), decodeWord w = .ok i → encodeWord i = w

/-- Derived from `30_encoding.md` section 2 and the strict decoding of D3 (log 13): a word names an instruction exactly
when it matches a row of the opcode map, no word matches two rows, and every other word is rejected by its own name. -/
def Obligations.WordNamesInstructionIffOneRowMatches : Prop :=
  ∀ w : Word,
    ((∃ i, decodeWord w = .ok i) ↔ ∃ row ∈ opcodeTable, matchesRow w row = true) ∧
    (∀ p ∈ opcodeTable, ∀ q ∈ opcodeTable, matchesRow w p = true → matchesRow w q = true → p = q) ∧
    ((∀ row ∈ opcodeTable, matchesRow w row = false) → decodeWord w = .error (.opcodeNotImplemented w))

/-- Sanity, words written out from the patterns of `30_encoding.md` section 2, one or more a family. -/
def Obligations.SampleWordsDecode : Prop :=
  decodeWord 0x00E0#16 = .ok .cls ∧ decodeWord 0x1234#16 = .ok (.jp 0x234#12) ∧
  decodeWord 0x62F1#16 = .ok (.ldImm 2 0xF1#8) ∧ decodeWord 0x8AB4#16 = .ok (.addReg 10 11) ∧
  decodeWord 0xA123#16 = .ok (.ldI 0x123#12) ∧ decodeWord 0xD12F#16 = .ok (.drw 1 2 0xF#4) ∧
  decodeWord 0xE59E#16 = .ok (.skp 5) ∧ decodeWord 0xF333#16 = .ok (.ldBVx 3)

/-! ## Fetch and step -/

/-- R43: a fetch at any PC, odd or even, whose two bytes are inside memory takes the byte at the lower address as the high
one; only PC changes, by 2. -/
def Obligations.FetchReadsBigEndian : Prop :=
  ∀ s : State, s.pc.toNat + 1 < memSize →
    ∃ w t, fetch s = .next (w, t) ∧
      w.toNat = 256 * (s.byteAt s.pc.toNat).toNat + (s.byteAt (s.pc.toNat + 1)).toNat ∧
      t.pc.toNat = s.pc.toNat + 2 ∧ changesOnly (· = .counter) s t

/-- Derived from `20_memory.md` section 3 and the spec's decision D2 (log 10): a fetch whose second byte is outside memory
raises, reporting the first byte of the pair that is outside; PC and everything but the fault status stay. -/
def Obligations.FetchOutsideMemoryRaises : Prop :=
  ∀ s : State, memSize ≤ s.pc.toNat + 1 →
    ∃ t, stopsWith (fetch s)
      (.addressOutOfBounds (if memSize ≤ s.pc.toNat then s.pc.toNat else s.pc.toNat + 1) memSize) (fun _ => False) s t

/-- Derived from `60_exceptions.md` section 1: a step fetches, decodes and executes. A fetch error is the step's; the
bytes at PC, where they decode, run as their instruction with PC advanced by 2; a word that names no instruction raises.
-/
def Obligations.StepRunsDecodedInstruction : Prop :=
  ∀ s : State, s.fault = none →
    (∀ r, fetch s = .fault r → step s = .fault r) ∧
    (s.pc.toNat + 1 < memSize →
      (∀ i, decode [s.byteAt s.pc.toNat, s.byteAt (s.pc.toNat + 1)] = .ok (i, []) → i.wf = true →
        step s = exec i { s with pc := s.pc + 2#16 }) ∧
      (∀ e, decode [s.byteAt s.pc.toNat, s.byteAt (s.pc.toNat + 1)] = .error e →
        ∃ w t, stopsWith (step s) (.opcodeNotImplemented w) (· = .counter) s t))

/-- R116: a word that names no instruction raises `OpcodeNotImplemented` with that word; PC has advanced by 2 and nothing
else has changed but the fault status. -/
def Obligations.UnassignedWordRaises : Prop :=
  ∀ s : State, s.fault = none → s.pc.toNat + 1 < memSize →
    (∀ i, decodeWord (s.wordAt s.pc.toNat) ≠ .ok i) →
    ∃ t, stopsWith (step s) (.opcodeNotImplemented (s.wordAt s.pc.toNat)) (· = .counter) s t ∧
      t.pc.toNat = s.pc.toNat + 2

/-- Derived from `60_exceptions.md` section 4, decision D18 (log 11): a faulted machine gets no step and no tick; a step
or tick that stops with an error records that error as the fault status, and one that goes on leaves no fault. -/
def Obligations.FaultStatusIsSticky : Prop :=
  (∀ s e, s.fault = some e →
    step s = .refused (.stepAfterFault e) ∧ tick s = .refused (.stepAfterFault e)) ∧
  (∀ s t, step s = .next t → t.fault = none) ∧ (∀ s t, tick s = .next t → t.fault = none) ∧
  (∀ s e t, step s = .fault (.raised e t) → t.fault = some e) ∧
  (∀ s e t, tick s = .fault (.raised e t) → t.fault = some e)

/-- Derived from `20_memory.md` section 6, decision D23: bytes stored at PC, even by the instruction just before, are what
the next fetch reads; there is no cache. -/
def Obligations.FetchSeesEarlierStores : Prop :=
  ∀ (s t u : State) (hi lo : Byte),
    memWrite s.pc.toNat hi s = .next t → memWrite (s.pc.toNat + 1) lo t = .next u →
    ∃ v, fetch u = .next (wordOfBytes hi lo, v)

/-! ## Memory and stack primitives -/

/-- Derived from `20_memory.md` section 1; the recorded limit 4096 is decision D12 (log 10): a read of an address inside
memory has no side effect, a write changes its byte and no other, in every state, and either one outside memory raises
and changes nothing but the fault status. -/
def Obligations.MemoryAccessesCheckBound : Prop :=
  ∀ (a : Nat) (s : State),
    (a < memSize → memRead a s = .next (s.byteAt a) ∧
      ∀ b, ∃ t, memWrite a b s = .next t ∧ t.byteAt a = b ∧ changesOnly (· = .byte a) s t) ∧
    (memSize ≤ a →
      (∃ t, stopsWith (memRead a s) (.addressOutOfBounds a memSize) (fun _ => False) s t) ∧
      ∀ b, ∃ t, stopsWith (memWrite a b s) (.addressOutOfBounds a memSize) (fun _ => False) s t)

/-- The model's canonical form (`20_memory.md` section 1 gives one array): two memories in it that read the same at every
address are the same data. -/
def Obligations.EqualReadsMeanEqualMemory : Prop :=
  ∀ (c : Config) (m n : Memory), m.wf c → n.wf c → (∀ a, Memory.read c m a = Memory.read c n a) → m = n

/-- R20, R21: a push with fewer than 15 entries held appends, a push at 15 raises `StackOverflow`; a pop of a non-empty
stack takes the last entry off and an empty one raises `StackUnderflow`; failing, both leave the stack as it was. -/
def Obligations.StackIsLastInFirstOut : Prop :=
  (∀ (v : Word) (s : State), s.stack.length < 15 →
    ∃ t, push v s = .next t ∧ t.stack = s.stack ++ [v] ∧ changesOnly (· = .stack) s t ∧
      ∃ u, pop t = .next (v, u) ∧ u.stack = s.stack) ∧
  (∀ (v : Word) (s : State), 15 ≤ s.stack.length → ∃ t, stopsWith (push v s) .stackOverflow (fun _ => False) s t) ∧
  (∀ s : State, s.stack ≠ [] → ∃ v t, pop s = .next (v, t) ∧ t.stack ++ [v] = s.stack ∧ changesOnly (· = .stack) s t) ∧
  (∀ s : State, s.stack = [] → ∃ t, stopsWith (pop s) .stackUnderflow (fun _ => False) s t)

/-- Derived from `20_memory.md` section 2, decision D22 (log 12): a block that fits is copied, byte `k` to `base + k`, and
no other byte changes; one that does not fit writes nothing and reports the final address. -/
def Obligations.BlockLoadChecksFinalAddress : Prop :=
  ∀ (base : Nat) (bytes : List Byte) (s : State),
    (bytes = [] ∨ base + bytes.length ≤ memSize →
      ∃ t, load base bytes s = .next t ∧ (∀ k b, bytes[k]? = some b → t.byteAt (base + k) = b) ∧
        changesOnly (fun p => ∃ k, k < bytes.length ∧ p = .byte (base + k)) s t) ∧
    (bytes ≠ [] → memSize < base + bytes.length →
      ∃ t, stopsWith (load base bytes s) (.addressOutOfBounds (base + bytes.length - 1) memSize) (fun _ => False) s t)

/-! ## Control flow -/

/-- R66; at a target of 0xFFF the next fetch raises. -/
def Obligations.JumpSetsCounter : Prop :=
  rowDecodes 0xF000#16 0x1000#16 (fun w => .jp (fieldNNN w)) ∧
  ∀ (nnn : Addr12) (s : State),
    ∃ t, exec (.jp nnn) s = .next t ∧ t.pc.toNat = nnn.toNat ∧ changesOnly (· = .counter) s t ∧
      (nnn.toNat = 0xFFF → ∃ u, stopsWith (fetch t) (.addressOutOfBounds 4096 4096) (fun _ => False) t u)

/-- R72: the offset is V0, and the sum is not masked; at a sum of 4095 or more the next fetch raises. -/
def Obligations.JumpOffsetAddsRegisterZero : Prop :=
  rowDecodes 0xF000#16 0xB000#16 (fun w => .jpV0 (fieldNNN w)) ∧
  ∀ (nnn : Addr12) (s : State),
    ∃ t, exec (.jpV0 nnn) s = .next t ∧ t.pc.toNat = nnn.toNat + (s.getV 0).toNat ∧ changesOnly (· = .counter) s t ∧
      (4095 ≤ nnn.toNat + (s.getV 0).toNat →
        ∃ a u, stopsWith (fetch t) (.addressOutOfBounds a 4096) (fun _ => False) t u)

/-- R67: with fewer than 15 entries held, the return address is pushed and PC is `nnn`; at 15, `StackOverflow`, with PC
and stack as they were. -/
def Obligations.CallPushesReturnAddress : Prop :=
  rowDecodes 0xF000#16 0x2000#16 (fun w => .call (fieldNNN w)) ∧
  ∀ (nnn : Addr12) (s : State),
    (s.stack.length < 15 → ∃ t, exec (.call nnn) s = .next t ∧ t.stack = s.stack ++ [s.pc] ∧
      t.pc.toNat = nnn.toNat ∧ changesOnly (fun p => p = .counter ∨ p = .stack) s t) ∧
    (15 ≤ s.stack.length → ∃ t, stopsWith (exec (.call nnn) s) .stackOverflow (fun _ => False) s t)

/-- R65: PC is the last entry, used as it is, and the entry is gone; on an empty stack, `StackUnderflow`. -/
def Obligations.ReturnPopsCounter : Prop :=
  decodeWord 0x00EE#16 = .ok .ret ∧
  ∀ s : State,
    (∀ rest v, s.stack = rest ++ [v] → ∃ t, exec .ret s = .next t ∧ t.pc = v ∧ t.stack = rest ∧
      changesOnly (fun p => p = .counter ∨ p = .stack) s t) ∧
    (s.stack = [] → ∃ t, stopsWith (exec .ret s) .stackUnderflow (fun _ => False) s t)

/-- R68, R69: for the same `x` and `nn` exactly one of the two skips, adding 2 to PC modulo 2^16 (R63). -/
def Obligations.ImmediateSkips : Prop :=
  rowDecodes 0xF000#16 0x3000#16 (fun w => .seImm (fieldX w) (fieldNN w)) ∧
  rowDecodes 0xF000#16 0x4000#16 (fun w => .sneImm (fieldX w) (fieldNN w)) ∧
  ∀ (x : Reg) (nn : Byte) (s : State),
    (∃ t, exec (.seImm x nn) s = .next t ∧
      t.pc.toNat = (if (s.getV x).toNat = nn.toNat then (s.pc.toNat + 2) % 2 ^ 16 else s.pc.toNat) ∧
      changesOnly (· = .counter) s t) ∧
    (∃ t, exec (.sneImm x nn) s = .next t ∧
      t.pc.toNat = (if (s.getV x).toNat = nn.toNat then s.pc.toNat else (s.pc.toNat + 2) % 2 ^ 16) ∧
      changesOnly (· = .counter) s t)

/-- Derived from `41_control_flow.md` section 2; that the low nibble must be 0 is decision D3 (log 13). -/
def Obligations.RegisterSkips : Prop :=
  rowDecodes 0xF00F#16 0x5000#16 (fun w => .seReg (fieldX w) (fieldY w)) ∧
  rowDecodes 0xF00F#16 0x9000#16 (fun w => .sneReg (fieldX w) (fieldY w)) ∧
  ∀ (x y : Reg) (s : State),
    (∃ t, exec (.seReg x y) s = .next t ∧
      t.pc.toNat = (if (s.getV x).toNat = (s.getV y).toNat then (s.pc.toNat + 2) % 2 ^ 16 else s.pc.toNat) ∧
      changesOnly (· = .counter) s t) ∧
    (∃ t, exec (.sneReg x y) s = .next t ∧
      t.pc.toNat = (if (s.getV x).toNat = (s.getV y).toNat then s.pc.toNat else (s.pc.toNat + 2) % 2 ^ 16) ∧
      changesOnly (· = .counter) s t)

/-! ## Registers, arithmetic, logic, shifts, random -/

/-- R75, R77: loading a register from an immediate or another register. -/
def Obligations.RegisterLoads : Prop :=
  rowDecodes 0xF000#16 0x6000#16 (fun w => .ldImm (fieldX w) (fieldNN w)) ∧
  rowDecodes 0xF00F#16 0x8000#16 (fun w => .ldReg (fieldX w) (fieldY w)) ∧
  ∀ (x : Reg) (s : State),
    (∀ nn, ∃ t, exec (.ldImm x nn) s = .next t ∧ t.getV x = nn ∧ changesOnly (· = .reg x) s t) ∧
    (∀ y, ∃ t, exec (.ldReg x y) s = .next t ∧ t.getV x = s.getV y ∧ changesOnly (· = .reg x) s t)

/-- R76: the sum modulo 256; VF is not written unless it is the destination. -/
def Obligations.AddImmediateWrapsWithoutFlag : Prop :=
  rowDecodes 0xF000#16 0x7000#16 (fun w => .addImm (fieldX w) (fieldNN w)) ∧
  ∀ (x : Reg) (nn : Byte) (s : State),
    ∃ t, exec (.addImm x nn) s = .next t ∧ (t.getV x).toNat = ((s.getV x).toNat + nn.toNat) % 256 ∧
      changesOnly (· = .reg x) s t

/-- Derived from `42_alu.md` section 3; that VF is left alone is decision D5 (log 6): bit by bit, and only `V[x]`
changes. -/
def Obligations.LogicIsBitwiseWithoutFlag : Prop :=
  rowDecodes 0xF00F#16 0x8001#16 (fun w => .or (fieldX w) (fieldY w)) ∧
  rowDecodes 0xF00F#16 0x8002#16 (fun w => .and (fieldX w) (fieldY w)) ∧
  rowDecodes 0xF00F#16 0x8003#16 (fun w => .xor (fieldX w) (fieldY w)) ∧
  ∀ (x y : Reg) (s : State),
    (∃ t, exec (.or x y) s = .next t ∧ changesOnly (· = .reg x) s t ∧
      ∀ b, (t.getV x).getLsbD b = ((s.getV x).getLsbD b || (s.getV y).getLsbD b)) ∧
    (∃ t, exec (.and x y) s = .next t ∧ changesOnly (· = .reg x) s t ∧
      ∀ b, (t.getV x).getLsbD b = ((s.getV x).getLsbD b && (s.getV y).getLsbD b)) ∧
    (∃ t, exec (.xor x y) s = .next t ∧ changesOnly (· = .reg x) s t ∧
      ∀ b, (t.getV x).getLsbD b = ((s.getV x).getLsbD b != (s.getV y).getLsbD b))

/-- Derived from `42_alu.md` sections 1 and 4: the sum modulo 256 and the carry out of the unbounded sum, both from the
operands before any write. For `x` = VF the write order is decision D4 (log 3). -/
def Obligations.AddSetsCarry : Prop :=
  rowDecodes 0xF00F#16 0x8004#16 (fun w => .addReg (fieldX w) (fieldY w)) ∧
  ∀ (x y : Reg) (s : State),
    ∃ t, exec (.addReg x y) s = .next t ∧
      resultAndFlag x (((s.getV x).toNat + (s.getV y).toNat) % 256)
        (if 255 < (s.getV x).toNat + (s.getV y).toNat then 1 else 0) s t

/-- Derived from `42_alu.md` sections 1 and 4: both subtractions modulo 256 with VF = NOT borrow, equal operands being no
borrow. For `x` = VF the write order is decision D4 (log 3). -/
def Obligations.SubtractionsSetNotBorrow : Prop :=
  rowDecodes 0xF00F#16 0x8005#16 (fun w => .sub (fieldX w) (fieldY w)) ∧
  rowDecodes 0xF00F#16 0x8007#16 (fun w => .subn (fieldX w) (fieldY w)) ∧
  ∀ (x y : Reg) (s : State),
    (∃ t, exec (.sub x y) s = .next t ∧
      resultAndFlag x (((s.getV x).toNat + 256 - (s.getV y).toNat) % 256)
        (if (s.getV x).toNat < (s.getV y).toNat then 0 else 1) s t) ∧
    (∃ t, exec (.subn x y) s = .next t ∧
      resultAndFlag x (((s.getV y).toNat + 256 - (s.getV x).toNat) % 256)
        (if (s.getV y).toNat < (s.getV x).toNat then 0 else 1) s t)

/-- Derived from `42_alu.md` sections 1 and 4: both shifts take Vx, any `y` nibble being ignored, and VF is the bit
shifted out. For `x` = VF the write order is decision D4 (log 3). -/
def Obligations.ShiftsCaptureBitShiftedOut : Prop :=
  rowDecodes 0xF00F#16 0x8006#16 (fun w => .shr (fieldX w) (fieldY w)) ∧
  rowDecodes 0xF00F#16 0x800E#16 (fun w => .shl (fieldX w) (fieldY w)) ∧
  ∀ (x y : Reg) (s : State),
    (∃ t, exec (.shr x y) s = .next t ∧
      resultAndFlag x ((s.getV x).toNat / 2) ((s.getV x).toNat % 2) s t) ∧
    (∃ t, exec (.shl x y) s = .next t ∧
      resultAndFlag x ((s.getV x).toNat * 2 % 256) ((s.getV x).toNat / 128) s t)

/-- Derived from `42_alu.md` section 5, decision D11: some byte under the mask. The byte is the model's free value,
applied to its count of draws (log 4), which the draw advances so that the next draw is another; nothing is claimed of
it. -/
def Obligations.RandomByteUnderMask : Prop :=
  rowDecodes 0xF000#16 0xC000#16 (fun w => .rnd (fieldX w) (fieldNN w)) ∧
  ∀ (x : Reg) (nn : Byte) (s : State),
    ∃ t, exec (.rnd x nn) s = .next t ∧ t.getV x = Config.randomByte s.draws &&& nn ∧
      (∀ b, nn.getLsbD b = false → (t.getV x).getLsbD b = false) ∧ t.draws = s.draws + 1 ∧
      changesOnly (fun p => p = .reg x ∨ p = .draws) s t

/-! ## Index register and memory transfer -/

/-- R88, R90: `I` from an address, and from a glyph number, the whole of `V[x]`. -/
def Obligations.IndexLoads : Prop :=
  rowDecodes 0xF000#16 0xA000#16 (fun w => .ldI (fieldNNN w)) ∧
  rowDecodes 0xF0FF#16 0xF029#16 (fun w => .ldFVx (fieldX w)) ∧
  ∀ s : State,
    (∀ nnn, ∃ t, exec (.ldI nnn) s = .next t ∧ t.i.toNat = nnn.toNat ∧ changesOnly (· = .index) s t) ∧
    (∀ x, ∃ t, exec (.ldFVx x) s = .next t ∧ t.i.toNat = s.config.fontBase.val + 5 * (s.getV x).toNat ∧
      changesOnly (· = .index) s t)

/-- Derived from `43_index_memory.md` section 2, decision D8 (log 9): the sum where it fits 16 bits, VF untouched;
`Unspecified(IndexOverflow)` where it does not, nothing changed but the fault status. -/
def Obligations.IndexAddOrOverflow : Prop :=
  rowDecodes 0xF0FF#16 0xF01E#16 (fun w => .addIVx (fieldX w)) ∧
  ∀ (x : Reg) (s : State),
    (s.i.toNat + (s.getV x).toNat ≤ 0xFFFF → ∃ t, exec (.addIVx x) s = .next t ∧
      t.i.toNat = s.i.toNat + (s.getV x).toNat ∧ changesOnly (· = .index) s t) ∧
    (0xFFFF < s.i.toNat + (s.getV x).toNat →
      ∃ t, stopsWith (exec (.addIVx x) s) (.unspecified .indexOverflow) (fun _ => False) s t)

/-- Derived from `43_index_memory.md` section 3, decisions D1 and D13 (log 10): the three decimal digits of `V[x]`,
hundreds at `I`; at the first address outside memory the error, the digits before it stored. -/
def Obligations.DecimalDigitsStored : Prop :=
  rowDecodes 0xF0FF#16 0xF033#16 (fun w => .ldBVx (fieldX w)) ∧
  ∀ (x : Reg) (s : State),
    (s.dataAddress 2 < memSize → ∃ t, exec (.ldBVx x) s = .next t ∧
      (∀ k, k < 3 → (t.byteAt (s.dataAddress k)).toNat = digitAt (s.getV x).toNat k) ∧
      changesOnly (fun p => ∃ k, k < 3 ∧ p = .byte (s.dataAddress k)) s t) ∧
    (∀ k, k < 3 → (∀ j, j < k → s.dataAddress j < memSize) → memSize ≤ s.dataAddress k →
      ∃ t, stopsWith (exec (.ldBVx x) s) (.addressOutOfBounds (s.dataAddress k) memSize)
        (fun p => ∃ j, j < k ∧ p = .byte (s.dataAddress j)) s t ∧
        ∀ j, j < k → (t.byteAt (s.dataAddress j)).toNat = digitAt (s.getV x).toNat j)

/-- Derived from `43_index_memory.md` section 3: double dabble, eight shift-and-correct iterations, gives the decimal
digits. -/
def Obligations.DoubleDabbleGivesDecimalDigits : Prop :=
  ∀ b : Byte, (doubleDabble b).1.toNat = digitAt b.toNat 0 ∧ (doubleDabble b).2.1.toNat = digitAt b.toNat 1 ∧
    (doubleDabble b).2.2.toNat = digitAt b.toNat 2

/-- Derived from `43_index_memory.md` section 3, decisions D1, D7, D13 (logs 6, 10): registers V0..Vx are stored from `I`
upwards, `I` unchanged; where the block runs past memory, the error at the first address outside, the stores below it
standing. -/
def Obligations.RegistersStored : Prop :=
  rowDecodes 0xF0FF#16 0xF055#16 (fun w => .ldMemVx (fieldX w)) ∧
  ∀ (x : Reg) (s : State),
    (s.dataAddress x.val < memSize → ∃ t, exec (.ldMemVx x) s = .next t ∧
      (∀ r : Reg, r ≤ x → t.byteAt (s.dataAddress r.val) = s.getV r) ∧
      changesOnly (fun p => ∃ r : Reg, r ≤ x ∧ p = .byte (s.dataAddress r.val)) s t) ∧
    (memSize ≤ s.dataAddress x.val →
      ∃ t, stopsWith (exec (.ldMemVx x) s) (.addressOutOfBounds (s.dataAddress (bytesInside s)) memSize)
        (fun p => ∃ r : Reg, r.val < bytesInside s ∧ p = .byte (s.dataAddress r.val)) s t ∧
        ∀ r : Reg, r.val < bytesInside s → t.byteAt (s.dataAddress r.val) = s.getV r)

/-- Derived from `43_index_memory.md` section 3, decisions D1, D7, D13 (logs 6, 10): registers V0..Vx are loaded from `I`
upwards, `I` and memory unchanged; where the block runs past memory, the error at the first address outside, the loads
below it standing. -/
def Obligations.RegistersLoaded : Prop :=
  rowDecodes 0xF0FF#16 0xF065#16 (fun w => .ldVxMem (fieldX w)) ∧
  ∀ (x : Reg) (s : State),
    (s.dataAddress x.val < memSize → ∃ t, exec (.ldVxMem x) s = .next t ∧
      (∀ r : Reg, r ≤ x → t.getV r = s.byteAt (s.dataAddress r.val)) ∧
      changesOnly (fun p => ∃ r : Reg, r ≤ x ∧ p = .reg r) s t) ∧
    (memSize ≤ s.dataAddress x.val →
      ∃ t, stopsWith (exec (.ldVxMem x) s) (.addressOutOfBounds (s.dataAddress (bytesInside s)) memSize)
        (fun p => ∃ r : Reg, r.val < bytesInside s ∧ p = .reg r) s t ∧
        ∀ r : Reg, r.val < bytesInside s → t.getV r = s.byteAt (s.dataAddress r.val))

/-! ## Display -/

/-- R95: every pixel off, VF and everything else untouched. -/
def Obligations.ClearTurnsEveryPixelOff : Prop :=
  decodeWord 0x00E0#16 = .ok .cls ∧
  ∀ s : State, ∃ t, exec .cls s = .next t ∧ (∀ px py, t.pixel px py = false) ∧
    changesOnly (fun p => ∃ px py, p = .pixel px py) s t

/-- Derived from `44_display.md` section 2: a draw whose rows are all inside memory (a draw of no rows always is) leaves
the old screen XOR the sprite, placed with wrap-around; VF is 1 exactly when the sprite covered a pixel that was on. -/
def Obligations.DrawXorsWrappedSprite : Prop :=
  rowDecodes 0xF000#16 0xD000#16 (fun w => .drw (fieldX w) (fieldY w) (fieldN w)) ∧
  ∀ (x y : Reg) (n : Nibble) (s : State), (∀ r, r < n.toNat → s.dataAddress r < memSize) →
    ∃ t, exec (.drw x y n) s = .next t ∧ spriteXored x y n.toNat s t ∧
      ((∃ px py, spriteCovers s x y n.toNat px py ∧ s.pixel px py = true) → t.getV regVF = 1#8) ∧
      ((¬ ∃ px py, spriteCovers s x y n.toNat px py ∧ s.pixel px py = true) → t.getV regVF = 0#8) ∧
      changesOnly (fun p => (∃ px py, p = .pixel px py) ∨ p = .reg regVF) s t

/-- Derived from `44_display.md` section 2 and `60_exceptions.md` section 4, decision D1 (log 10): a draw whose row `r` is
the first outside memory raises there; the toggles of the rows before it stand and VF is not written. -/
def Obligations.DrawOutsideMemoryKeepsEarlierRows : Prop :=
  ∀ (x y : Reg) (n : Nibble) (s : State) (r : Nat), r < n.toNat → (∀ q, q < r → s.dataAddress q < memSize) →
    memSize ≤ s.dataAddress r →
    ∃ t, stopsWith (exec (.drw x y n) s) (.addressOutOfBounds (s.dataAddress r) memSize)
      (fun p => ∃ px py, p = .pixel px py) s t ∧ spriteXored x y r s t

/-! ## Keypad and timers -/

/-- Derived from `45_timers_keypad.md` section 1, decision D9 (log 9): for a key that exists exactly one of the two skips;
an index above 15 raises. -/
def Obligations.KeySkips : Prop :=
  rowDecodes 0xF0FF#16 0xE09E#16 (fun w => .skp (fieldX w)) ∧
  rowDecodes 0xF0FF#16 0xE0A1#16 (fun w => .sknp (fieldX w)) ∧
  ∀ (x : Reg) (s : State),
    (∀ k : Fin 16, (s.getV x).toNat = k.val →
      (∃ t, exec (.skp x) s = .next t ∧
        t.pc.toNat = (if s.key k then (s.pc.toNat + 2) % 2 ^ 16 else s.pc.toNat) ∧ changesOnly (· = .counter) s t) ∧
      (∃ t, exec (.sknp x) s = .next t ∧
        t.pc.toNat = (if s.key k then s.pc.toNat else (s.pc.toNat + 2) % 2 ^ 16) ∧ changesOnly (· = .counter) s t)) ∧
    (15 < (s.getV x).toNat →
      (∃ t, stopsWith (exec (.skp x) s) (.unspecified .keyIndexOutOfRange) (fun _ => False) s t) ∧
      (∃ t, stopsWith (exec (.sknp x) s) (.unspecified .keyIndexOutOfRange) (fun _ => False) s t))

/-- Derived from `45_timers_keypad.md` section 2, decision D10 (logs 5, 7): with a key pressed, `V[x]` is the number of
some pressed key, which one being the free value; with none, PC goes back by 2 and nothing else changes. -/
def Obligations.KeyWaitTakesPressedKeyOrRewinds : Prop :=
  rowDecodes 0xF0FF#16 0xF00A#16 (fun w => .ldVxK (fieldX w)) ∧
  ∀ (x : Reg) (s : State),
    ((∃ k, s.key k = true) → ∃ t k, exec (.ldVxK x) s = .next t ∧ s.key k = true ∧ (t.getV x).toNat = k.val ∧
      changesOnly (fun p => p = .reg x ∨ p = .draws) s t) ∧
    ((∀ k, s.key k = false) → ∃ t, exec (.ldVxK x) s = .next t ∧ t.pc.toNat = (s.pc.toNat + 2 ^ 16 - 2) % 2 ^ 16 ∧
      changesOnly (· = .counter) s t)

/-- Derived from `45_timers_keypad.md` section 3: DT to a register, a register to DT, a register to ST; the sound output
follows at once. -/
def Obligations.TimerTransfers : Prop :=
  rowDecodes 0xF0FF#16 0xF007#16 (fun w => .ldVxDt (fieldX w)) ∧
  rowDecodes 0xF0FF#16 0xF015#16 (fun w => .ldDtVx (fieldX w)) ∧
  rowDecodes 0xF0FF#16 0xF018#16 (fun w => .ldStVx (fieldX w)) ∧
  ∀ (x : Reg) (s : State),
    (∃ t, exec (.ldVxDt x) s = .next t ∧ t.getV x = s.dt ∧ changesOnly (· = .reg x) s t) ∧
    (∃ t, exec (.ldDtVx x) s = .next t ∧ t.dt = s.getV x ∧ changesOnly (· = .delayTimer) s t) ∧
    (∃ t, exec (.ldStVx x) s = .next t ∧ t.st = s.getV x ∧ (soundOn t = true ↔ 0 < (s.getV x).toNat) ∧
      changesOnly (· = .soundTimer) s t)

/-- Derived from `60_exceptions.md` section 2: each timer drops by one when positive and never below zero; the sound
output is on exactly while ST > 0. -/
def Obligations.TimersCountDownToZero : Prop :=
  ∀ s : State,
    (decrementTimers s).dt.toNat = s.dt.toNat - 1 ∧ (decrementTimers s).st.toNat = s.st.toNat - 1 ∧
    changesOnly (fun p => p = .delayTimer ∨ p = .soundTimer) s (decrementTimers s) ∧
    (soundOn s = true ↔ 0 < s.st.toNat)

/-! ## Whole-machine rules -/

/-- Derived from the register, index, timer, stack and memory rules of `10_state.md` (sections 1, 2, 4, 5, 6) and
`20_memory.md` section 4: whether it goes on or stops with an error, every instruction changes only the parts its rule
names, and the fault status where it stops. That 8xy1 to 8xy3 and Fx1E leave VF alone and Fx55 and Fx65 leave I alone are
decisions D5, D8 and D7 (log 6). -/
def Obligations.EveryInstructionKeepsItsFrame : Prop :=
  ∀ (i : Instr) (s : State),
    (∀ t, exec i s = .next t → changesOnly (mayWrite i s) s t) ∧
    (∀ e t, exec i s = .fault (.raised e t) → changesOnly (fun p => mayWrite i s p ∨ p = .faultStatus) s t)

/-- Derived from `60_exceptions.md` sections 3 and 4, decisions D8 and D9 (log 9): every instruction raises only the one
kind the table gives it, and none is ever refused. -/
def Obligations.EveryInstructionRaisesOnlyItsKind : Prop :=
  ∀ (i : Instr) (s : State),
    (∀ e t, exec i s = .fault (.raised e t) → mayRaise i e) ∧ (∀ r, exec i s ≠ .refused r)

/-- R114, R115: `StackOverflow` comes only from 2nnn at 15 entries, `StackUnderflow` only from 00EE on an empty stack, and
the stack is not changed. -/
def Obligations.StackErrorsComeFromCallAndReturn : Prop :=
  (∀ s t, step s = .fault (.raised .stackOverflow t) →
    (∃ nnn, decodeWord (s.wordAt s.pc.toNat) = .ok (.call nnn)) ∧ 15 ≤ s.stack.length ∧ t.stack = s.stack) ∧
  (∀ s t, step s = .fault (.raised .stackUnderflow t) →
    decodeWord (s.wordAt s.pc.toNat) = .ok .ret ∧ s.stack = [] ∧ t.stack = s.stack)

/-- The model's invariant (`20_memory.md` section 1, `10_state.md` section 4): memory stays in canonical form, the stack
at most 15 deep and the program image one that fits (decision D22, log 12), through every step, one that stops with an
error included. -/
def Obligations.StepKeepsWellFormedState : Prop := ∀ s : State, s.wf → leaves State.wf (step s)

/-- The same through every call of the host (`60_exceptions.md` section 6). A load keeps the image one that fits because it
refuses any other, decision D22 (log 12). -/
def Obligations.HostCallsKeepWellFormedState : Prop :=
  ∀ (c : HostCall) (s : State), s.wf → leaves State.wf (hostCall c s)

/-- The invariant holds after reset and at construction under every configuration, whose empty stack is the spec's
decision D14 (log 1). -/
def Obligations.ResetStateWellFormed : Prop :=
  State.reset.wf ∧ State.reset.returnsBounded ∧ ∀ c, (State.constructed c).wf

/-- Derived from `10_state.md` section 4: no host call takes the stack past 15 entries. -/
def Obligations.StackDepthAtMostFifteen : Prop :=
  ∀ (c : HostCall) (s : State), s.stack.length ≤ 15 → leaves (fun t => t.stack.length ≤ 15) (hostCall c s)

/-- Derived from `10_state.md` section 3: with return addresses of at most 4096, a step leaves PC at most 0x10FE, so PC
never wraps, and the return addresses stay at most 4096. -/
def Obligations.StepBoundsCounter : Prop :=
  ∀ s t : State, s.returnsBounded → step s = .next t → t.pc.toNat ≤ 0x10FE ∧ t.returnsBounded

/-- Derived from `10_state.md` section 6: no step or tick changes the keypad; the host replaces all sixteen flags at once
and nothing else. The program image and the configuration are kept too (section 8). -/
def Obligations.KeypadIsTheHosts : Prop :=
  (∀ s : State, leaves (fun t => t.keys = s.keys ∧ t.programImage = s.programImage ∧ t.config = s.config) (step s)) ∧
  (∀ s : State, leaves (fun t => t.keys = s.keys ∧ t.programImage = s.programImage ∧ t.config = s.config) (tick s)) ∧
  (∀ (keys : Keypad) (s : State), (∀ k : Fin 16, (setInput keys s).key k = keys[k]) ∧
    changesOnly (· = .keypad) s (setInput keys s))

/-- Derived from `10_state.md` section 5: no instruction reads ST; changing it changes an outcome only in ST itself, and
not at all after Fx18. The two outcomes compared have the same draws, the model's choice (logs 4, 5). -/
def Obligations.SoundTimerIsNeverRead : Prop :=
  ∀ (i : Instr) (s : State) (b : Byte),
    ((∀ x, i ≠ .ldStVx x) → exec i { s with st := b } = mapOutcome (fun t => { t with st := b }) (exec i s)) ∧
    (∀ x, i = .ldStVx x → exec i { s with st := b } = exec i s)

/-- Derived from `10_state.md` section 8: no instruction can see the program image; changing it changes nothing else of a
step's outcome. The two outcomes compared have the same draws, the model's choice (logs 4, 5). -/
def Obligations.ProgramImageIsInvisible : Prop :=
  ∀ (s : State) (image : List Byte),
    step { s with programImage := image } = mapOutcome (fun t => { t with programImage := image }) (step s)

/-! ## Ticks, waiting, the end of a run -/

/-- Derived from `60_exceptions.md` section 1, decision D21 for a tick of no steps: where all the tick's steps go on, the
timers drop once at its end; where the step after the first `k` stops, the tick stops with the same error at once, the
timers as that step left them. -/
def Obligations.TickRunsStepsThenTimers : Prop :=
  ∀ s : State, s.fault = none →
    (∀ t, runSteps s.config.stepsPerTick s = .next t → ∃ u, tick s = .next u ∧ u.dt.toNat = t.dt.toNat - 1 ∧
      u.st.toNat = t.st.toNat - 1 ∧ changesOnly (fun p => p = .delayTimer ∨ p = .soundTimer) t u) ∧
    (∀ k t e u, k < s.config.stepsPerTick → runSteps k s = .next t → step t = .fault (.raised e u) →
      tick s = .fault (.raised e u) ∧ u.dt = t.dt ∧ u.st = t.st)

/-- Derived from `10_state.md` section 8 and `45_timers_keypad.md` section 2, decision D10 (log 7): a machine waiting
for a key stays exactly as it is through every step, and a tick changes its timers alone. -/
def Obligations.WaitingMachinePolls : Prop :=
  ∀ s : State, s.waiting → step s = .next s ∧ ∃ t, tick s = .next t ∧ t.dt.toNat = s.dt.toNat - 1 ∧
    t.st.toNat = s.st.toNat - 1 ∧ changesOnly (fun p => p = .delayTimer ∨ p = .soundTimer) s t

/-- Derived from `60_exceptions.md` section 6, decision D17 (log 14): from a jump to itself every further step leaves the
state as it is, a tick changes the timers alone, and a run that has ended there has ended after a tick and after new key
input too. -/
def Obligations.EndedRunStaysEnded : Prop :=
  ∀ s : State, s.atSelfJump → step s = .next s ∧ ∃ t, tick s = .next t ∧ t.atSelfJump ∧ t.dt.toNat = s.dt.toNat - 1 ∧
    t.st.toNat = s.st.toNat - 1 ∧ changesOnly (fun p => p = .delayTimer ∨ p = .soundTimer) s t ∧
    ∀ start, s.endedFrom start → t.endedFrom start ∧ ∀ keys, (setInput keys s).endedFrom start

/-! ## Construction, reset and loading -/

/-- R41: after a memory reset the program image's bytes stand from `PROGRAM_BASE`, the font's from `FONT_BASE` where the
image does not cover them, and every other byte is zero, whatever memory held before. -/
def Obligations.MemoryResetReplaysFontAndProgram : Prop :=
  ∀ s : State, blockFits s.config.programBase.toNat s.programImage.length = true →
    ∀ a, a < memSize →
      (∀ k b, s.programImage[k]? = some b → a = s.config.programBase.toNat + k → (hostReset s).byteAt a = b) ∧
      ((a < s.config.programBase.toNat ∨ s.config.programBase.toNat + s.programImage.length ≤ a) →
        (∀ k : Fin 80, a = s.config.fontBase.val + k.val → (hostReset s).byteAt a = s.config.font[k]) ∧
        (a < s.config.fontBase.val ∨ s.config.fontBase.val + 80 ≤ a → (hostReset s).byteAt a = 0#8))

/-- Derived from `70_reset_and_hazards.md` section 1; the zeros are the spec's decision D14 (log 1): registers, I, timers
zero, stack empty, screen off, PC at `PROGRAM_BASE`, no fault; keypad, image and configuration kept. -/
def Obligations.ResetClearsExecutionState : Prop :=
  ∀ s : State,
    (∀ x, (hostReset s).getV x = 0#8) ∧ (hostReset s).i = 0#16 ∧ (hostReset s).stack = [] ∧ (hostReset s).dt = 0#8 ∧
    (hostReset s).st = 0#8 ∧ (∀ px py, (hostReset s).pixel px py = false) ∧ (hostReset s).pc = s.config.programBase ∧
    (hostReset s).fault = none ∧ (hostReset s).keys = s.keys ∧ (hostReset s).programImage = s.programImage ∧
    (hostReset s).config = s.config

/-- Derived from `70_reset_and_hazards.md` section 1: what a program did is undone by a reset: after any step, going on or
not, a reset leaves what it would have left before it. The model's own count of draws goes on (log 4). -/
def Obligations.ResetUndoesSteps : Prop :=
  ∀ s : State, leaves (fun t => { hostReset t with draws := s.draws } = hostReset s) (step s)

/-- Derived from `70_reset_and_hazards.md` section 1, decisions D21 and D22 (log 12): construction succeeds exactly where
the font fits, and then loading an image that fits gives a state a reset does not change. That the constructed state, its PC
and keypad included, is the one a reset leaves is decision D14 (log 1). -/
def Obligations.ConstructThenLoadIsReset : Prop :=
  ∀ (base : Word) (fontBase steps : Nat) (font : Vector Byte fontSize) (order : FlagWriteOrder),
    (memSize < fontBase + 80 → construct base fontBase steps font order = .refused (.fontDoesNotFit fontBase)) ∧
    (fontBase + 80 ≤ memSize → ∃ s, construct base fontBase steps font order = .next s ∧
      s.config.programBase = base ∧ s.config.fontBase.val = fontBase ∧ s.config.stepsPerTick = steps ∧
      s.config.font = font ∧ s.config.flagWriteOrder = order ∧ s.pc = base ∧ s.programImage = [] ∧ (∀ k, s.key k = false) ∧ hostReset s = s ∧
      ∀ bytes, bytes = [] ∨ base.toNat + bytes.length ≤ memSize →
        ∃ t, loadProgram bytes s = .next t ∧ t.programImage = bytes ∧ hostReset t = t)

/-- Derived from `20_memory.md` section 2, decision D22 (log 12): loading a program that fits records the image and copies
it, and changes nothing else; one that does not fit is refused. -/
def Obligations.LoadProgramRecordsAndCopies : Prop :=
  ∀ (bytes : List Byte) (s : State),
    (bytes = [] ∨ s.config.programBase.toNat + bytes.length ≤ memSize →
      ∃ t, loadProgram bytes s = .next t ∧ t.programImage = bytes ∧
        (∀ k b, bytes[k]? = some b → t.byteAt (s.config.programBase.toNat + k) = b) ∧
        changesOnly (fun p => p = .image ∨ ∃ k, k < bytes.length ∧ p = .byte (s.config.programBase.toNat + k)) s t) ∧
    (bytes ≠ [] → memSize < s.config.programBase.toNat + bytes.length →
      loadProgram bytes s = .refused (.programDoesNotFit s.config.programBase.toNat bytes.length))
end

