-- ==== Sys2Proof/Laws/Decode.lean ====
section
/-! SUPPORT. The fields of a word built from fields, a word built from its fields, its two bytes, and well-formedness. -/

namespace Sys2Proof

/-- Every instruction is well-formed: the operands' types carry the fields' ranges (R12, R54). -/
theorem Instr.wf_all (i : Instr) : i.wf = true := by
  cases i <;> simp only [Instr.wf, fieldFits, Bool.and_eq_true, decide_eq_true_eq] <;> omega

/-! ## Fields of a built word (R53) -/

@[simp] theorem fieldF_wordFNNN (f : Nibble) (nnn : Addr12) : fieldF (wordFNNN f nnn) = f :=
  BitVec.extractLsb'_append_eq_left

@[simp] theorem fieldNNN_wordFNNN (f : Nibble) (nnn : Addr12) : fieldNNN (wordFNNN f nnn) = nnn :=
  BitVec.extractLsb'_append_eq_right

/-- A field inside the low 12 bits is a field of `nnn`. -/
theorem extract_wordFNNN (f : Nibble) (nnn : Addr12) (start len : Nat) (h : start + len ≤ 12) :
    (wordFNNN f nnn).extractLsb' start len = nnn.extractLsb' start len := by
  rw [← BitVec.extractLsb'_extractLsb'_of_le h]
  exact congrArg (BitVec.extractLsb' start len) (fieldNNN_wordFNNN f nnn)

@[simp] theorem fieldF_wordFXNN (f : Nibble) (x : Reg) (nn : Byte) : fieldF (wordFXNN f x nn) = f :=
  fieldF_wordFNNN ..

@[simp] theorem fieldX_wordFXNN (f : Nibble) (x : Reg) (nn : Byte) : fieldX (wordFXNN f x nn) = x :=
  congrArg BitVec.toFin ((extract_wordFNNN f _ 8 4 (by omega)).trans
    (BitVec.extractLsb'_append_eq_left (a := (BitVec.ofFin x : BitVec 4)) (b := nn)))

@[simp] theorem fieldNN_wordFXNN (f : Nibble) (x : Reg) (nn : Byte) : fieldNN (wordFXNN f x nn) = nn :=
  (extract_wordFNNN f _ 0 8 (by omega)).trans
    (BitVec.extractLsb'_append_eq_right (a := (BitVec.ofFin x : BitVec 4)) (b := nn))

@[simp] theorem fieldF_wordFXYN (f : Nibble) (x y : Reg) (n : Nibble) : fieldF (wordFXYN f x y n) = f :=
  fieldF_wordFNNN ..

@[simp] theorem fieldX_wordFXYN (f : Nibble) (x y : Reg) (n : Nibble) : fieldX (wordFXYN f x y n) = x :=
  fieldX_wordFXNN ..

/-- A field inside the low byte is a field of `nn`. -/
theorem extract_wordFXNN (f : Nibble) (x : Reg) (nn : Byte) (start len : Nat) (h : start + len ≤ 8) :
    (wordFXNN f x nn).extractLsb' start len = nn.extractLsb' start len := by
  rw [← BitVec.extractLsb'_extractLsb'_of_le h]
  exact congrArg (BitVec.extractLsb' start len) (fieldNN_wordFXNN f x nn)

@[simp] theorem fieldY_wordFXYN (f : Nibble) (x y : Reg) (n : Nibble) : fieldY (wordFXYN f x y n) = y :=
  congrArg BitVec.toFin ((extract_wordFXNN f x _ 4 4 (by omega)).trans
    (BitVec.extractLsb'_append_eq_left (a := (BitVec.ofFin y : BitVec 4)) (b := n)))

@[simp] theorem fieldN_wordFXYN (f : Nibble) (x y : Reg) (n : Nibble) : fieldN (wordFXYN f x y n) = n :=
  (extract_wordFXNN f x _ 0 4 (by omega)).trans
    (BitVec.extractLsb'_append_eq_right (a := (BitVec.ofFin y : BitVec 4)) (b := n))

/-! ## A word is built from its fields (R52: `nnn` is `x ++ y ++ n`, `nn` is `y ++ n`) -/

theorem wordFNNN_fields (w : Word) : wordFNNN (fieldF w) (fieldNNN w) = w :=
  BitVec.extractLsb'_append_extractLsb' (w := 4) (len := 12)

theorem fieldNNN_eq (w : Word) : fieldNNN w = BitVec.ofFin (fieldX w) ++ fieldNN w :=
  (BitVec.extractLsb'_append_extractLsb'_eq_extractLsb' (x := w) (start₁ := 0) (len₁ := 8) (start₂ := 8) (len₂ := 4)
    rfl).symm

theorem fieldNN_eq (w : Word) : fieldNN w = BitVec.ofFin (fieldY w) ++ fieldN w :=
  (BitVec.extractLsb'_append_extractLsb'_eq_extractLsb' (x := w) (start₁ := 0) (len₁ := 4) (start₂ := 4) (len₂ := 4)
    rfl).symm

theorem wordFXNN_fields (w : Word) : wordFXNN (fieldF w) (fieldX w) (fieldNN w) = w := by
  rw [wordFXNN, ← fieldNNN_eq, wordFNNN_fields]

theorem wordFXYN_fields (w : Word) : wordFXYN (fieldF w) (fieldX w) (fieldY w) (fieldN w) = w := by
  rw [wordFXYN, ← fieldNN_eq, wordFXNN_fields]

/-! ## Bytes of a word (R43) -/

@[simp] theorem wordOfBytes_bytes (w : Word) : wordOfBytes (highByte w) (lowByte w) = w :=
  BitVec.extractLsb'_append_extractLsb' (w := 8) (len := 8)

@[simp] theorem highByte_wordOfBytes (hi lo : Byte) : highByte (wordOfBytes hi lo) = hi :=
  BitVec.extractLsb'_append_eq_left

@[simp] theorem lowByte_wordOfBytes (hi lo : Byte) : lowByte (wordOfBytes hi lo) = lo :=
  BitVec.extractLsb'_append_eq_right

/-- The word two bytes make, as a number: the first byte is the high one. -/
theorem wordOfBytes_toNat (hi lo : Byte) : (wordOfBytes hi lo).toNat = 256 * hi.toNat + lo.toNat := by
  have h : (wordOfBytes hi lo).toNat = hi.toNat <<< 8 ||| lo.toNat := BitVec.toNat_append ..
  rw [h, ← Nat.shiftLeft_add_eq_or_of_lt lo.isLt, Nat.shiftLeft_eq]
  omega

/-! ## Decoding by name -/

/-- Two bytes decode exactly when the word they make does. -/
theorem decode_two_eq_ok {hi lo : Byte} {i : Instr} :
    decode [hi, lo] = .ok (i, []) ↔ decodeWord (wordOfBytes hi lo) = .ok i := by
  cases h : decodeWord (wordOfBytes hi lo) <;> simp [decode, h]

theorem decode_two_eq_error {hi lo : Byte} {e : DecodeError} :
    decode [hi, lo] = .error e ↔ decodeWord (wordOfBytes hi lo) = .error e := by
  cases h : decodeWord (wordOfBytes hi lo) <;> simp [decode, h]

theorem decodeWord_of_some {w : Word} {i : Instr} (h : decodeWord? w = some i) : decodeWord w = .ok i := by
  simp [decodeWord, h]

theorem decodeWord_of_none {w : Word} (h : decodeWord? w = none) :
    decodeWord w = .error (.opcodeNotImplemented w) := by
  simp [decodeWord, h]

/-- A word that names no instruction is rejected by that name and no other. -/
theorem decodeWord_eq_error {w : Word} {e : DecodeError} (h : decodeWord w = .error e) :
    decodeWord? w = none ∧ e = .opcodeNotImplemented w := by
  cases hd : decodeWord? w <;> simp_all [decodeWord]

theorem decodeWord_eq_ok {w : Word} {i : Instr} : decodeWord w = .ok i ↔ decodeWord? w = some i := by
  cases hd : decodeWord? w <;> simp [decodeWord, hd]

/-! ## Masks of the opcode map -/

@[simp] theorem wordFNNN_and (f g : Nibble) (a b : Addr12) :
    wordFNNN f a &&& wordFNNN g b = wordFNNN (f &&& g) (a &&& b) := BitVec.and_append

theorem wordFXNN_and (f g : Nibble) (x y : Reg) (a b : Byte) :
    wordFXNN f x a &&& wordFXNN g y b =
      wordFXNN (f &&& g) ((BitVec.ofFin x : BitVec 4) &&& BitVec.ofFin y).toFin (a &&& b) :=
  (wordFNNN_and ..).trans (congrArg (wordFNNN _) BitVec.and_append)

theorem wordFXYN_and (f g : Nibble) (x x' y y' : Reg) (m n : Nibble) :
    wordFXYN f x y m &&& wordFXYN g x' y' n =
      wordFXYN (f &&& g) ((BitVec.ofFin x : BitVec 4) &&& BitVec.ofFin x').toFin
        ((BitVec.ofFin y : BitVec 4) &&& BitVec.ofFin y').toFin (m &&& n) :=
  (wordFXNN_and ..).trans (congrArg (wordFXNN _ _) BitVec.and_append)

/-- The mask 0xF000 keeps the family. -/
theorem wordFNNN_mask (f : Nibble) (nnn : Addr12) : wordFNNN f nnn &&& 0xF000#16 = wordFNNN f 0#12 := by
  have h : (0xF000#16 : Word) = wordFNNN 0xF#4 0#12 := rfl
  rw [h, wordFNNN_and, BitVec.and_zero]
  exact congrArg (fun g => wordFNNN g 0#12) (BitVec.and_allOnes (x := f))

/-- The mask 0xF0FF keeps the family and the low byte. -/
theorem wordFXNN_mask (f : Nibble) (x : Reg) (nn : Byte) : wordFXNN f x nn &&& 0xF0FF#16 = wordFXNN f 0 nn := by
  have h : (0xF0FF#16 : Word) = wordFXNN 0xF#4 0 0xFF#8 := rfl
  have hx : ((BitVec.ofFin x : BitVec 4) &&& BitVec.ofFin (0 : Fin 16)).toFin = (0 : Fin 16) :=
    congrArg BitVec.toFin (BitVec.and_zero (x := (BitVec.ofFin x : BitVec 4)))
  rw [h, wordFXNN_and, hx]
  exact congrArg₂ (fun g b => wordFXNN g 0 b) (BitVec.and_allOnes (x := f)) (BitVec.and_allOnes (x := nn))

/-- The mask 0xF00F keeps the family and the low nibble. -/
theorem wordFXYN_mask (f : Nibble) (x y : Reg) (n : Nibble) : wordFXYN f x y n &&& 0xF00F#16 = wordFXYN f 0 0 n := by
  have h : (0xF00F#16 : Word) = wordFXYN 0xF#4 0 0 0xF#4 := rfl
  have h0 (r : Reg) : ((BitVec.ofFin r : BitVec 4) &&& BitVec.ofFin (0 : Fin 16)).toFin = (0 : Fin 16) :=
    congrArg BitVec.toFin (BitVec.and_zero (x := (BitVec.ofFin r : BitVec 4)))
  rw [h, wordFXYN_and, h0, h0]
  exact congrArg₂ (fun g m => wordFXYN g 0 0 m) (BitVec.and_allOnes (x := f)) (BitVec.and_allOnes (x := n))

end Sys2Proof
end

