-- ==== Sys2Proof/Laws/State.lean ====
section
/-! SUPPORT. One lemma per field per update of the state, each true by unfolding the update, and what a register, a byte
and a pixel read after a write. -/

namespace Sys2Proof.Machine

/-! ## `setV` -/

@[simp] theorem State.setV_i (s : State) (x : Reg) (b : Byte) : (s.setV x b).i = s.i := rfl
@[simp] theorem State.setV_pc (s : State) (x : Reg) (b : Byte) : (s.setV x b).pc = s.pc := rfl
@[simp] theorem State.setV_stack (s : State) (x : Reg) (b : Byte) : (s.setV x b).stack = s.stack := rfl
@[simp] theorem State.setV_dt (s : State) (x : Reg) (b : Byte) : (s.setV x b).dt = s.dt := rfl
@[simp] theorem State.setV_st (s : State) (x : Reg) (b : Byte) : (s.setV x b).st = s.st := rfl
@[simp] theorem State.setV_keys (s : State) (x : Reg) (b : Byte) : (s.setV x b).keys = s.keys := rfl
@[simp] theorem State.setV_fb (s : State) (x : Reg) (b : Byte) : (s.setV x b).fb = s.fb := rfl
@[simp] theorem State.setV_mem (s : State) (x : Reg) (b : Byte) : (s.setV x b).mem = s.mem := rfl
@[simp] theorem State.setV_programImage (s : State) (x : Reg) (b : Byte) : (s.setV x b).programImage = s.programImage := rfl
@[simp] theorem State.setV_config (s : State) (x : Reg) (b : Byte) : (s.setV x b).config = s.config := rfl
@[simp] theorem State.setV_fault (s : State) (x : Reg) (b : Byte) : (s.setV x b).fault = s.fault := rfl
@[simp] theorem State.setV_draws (s : State) (x : Reg) (b : Byte) : (s.setV x b).draws = s.draws := rfl

/-- A register write is seen at that register and nowhere else (R12: no register aliases another). -/
theorem State.getV_setV (s : State) (x y : Reg) (b : Byte) :
    (s.setV x b).getV y = if y = x then b else s.getV y := by
  simp only [State.getV, State.setV, Fin.getElem_fin, Vector.getElem_set, Fin.ext_iff, eq_comm]

@[simp] theorem State.getV_setV_same (s : State) (x : Reg) (b : Byte) : (s.setV x b).getV x = b := by
  simp [State.getV_setV]

theorem State.getV_setV_other (s : State) {x y : Reg} (b : Byte) (h : y ≠ x) : (s.setV x b).getV y = s.getV y := by
  simp [State.getV_setV, h]

@[simp] theorem State.byteAt_setV (s : State) (x : Reg) (b : Byte) (a : Nat) : (s.setV x b).byteAt a = s.byteAt a := rfl
@[simp] theorem State.pixel_setV (s : State) (x : Reg) (b : Byte) (px : Fin 64) (py : Fin 32) :
    (s.setV x b).pixel px py = s.pixel px py := rfl
@[simp] theorem State.key_setV (s : State) (x : Reg) (b : Byte) (k : Fin 16) : (s.setV x b).key k = s.key k := rfl
@[simp] theorem State.dataAddress_setV (s : State) (x : Reg) (b : Byte) (k : Nat) :
    (s.setV x b).dataAddress k = s.dataAddress k := rfl

/-! ## `setByte` -/

@[simp] theorem State.setByte_v (s : State) (a : Nat) (b : Byte) : (s.setByte a b).v = s.v := rfl
@[simp] theorem State.setByte_i (s : State) (a : Nat) (b : Byte) : (s.setByte a b).i = s.i := rfl
@[simp] theorem State.setByte_pc (s : State) (a : Nat) (b : Byte) : (s.setByte a b).pc = s.pc := rfl
@[simp] theorem State.setByte_stack (s : State) (a : Nat) (b : Byte) : (s.setByte a b).stack = s.stack := rfl
@[simp] theorem State.setByte_dt (s : State) (a : Nat) (b : Byte) : (s.setByte a b).dt = s.dt := rfl
@[simp] theorem State.setByte_st (s : State) (a : Nat) (b : Byte) : (s.setByte a b).st = s.st := rfl
@[simp] theorem State.setByte_keys (s : State) (a : Nat) (b : Byte) : (s.setByte a b).keys = s.keys := rfl
@[simp] theorem State.setByte_fb (s : State) (a : Nat) (b : Byte) : (s.setByte a b).fb = s.fb := rfl
@[simp] theorem State.setByte_programImage (s : State) (a : Nat) (b : Byte) : (s.setByte a b).programImage = s.programImage := rfl
@[simp] theorem State.setByte_config (s : State) (a : Nat) (b : Byte) : (s.setByte a b).config = s.config := rfl
@[simp] theorem State.setByte_fault (s : State) (a : Nat) (b : Byte) : (s.setByte a b).fault = s.fault := rfl
@[simp] theorem State.setByte_draws (s : State) (a : Nat) (b : Byte) : (s.setByte a b).draws = s.draws := rfl
@[simp] theorem State.getV_setByte (s : State) (a : Nat) (b : Byte) (x : Reg) : (s.setByte a b).getV x = s.getV x := rfl
@[simp] theorem State.pixel_setByte (s : State) (a : Nat) (b : Byte) (px : Fin 64) (py : Fin 32) :
    (s.setByte a b).pixel px py = s.pixel px py := rfl
@[simp] theorem State.dataAddress_setByte (s : State) (a : Nat) (b : Byte) (k : Nat) :
    (s.setByte a b).dataAddress k = s.dataAddress k := rfl

/-! ## `skip` -/

@[simp] theorem skip_v (s : State) : (skip s).v = s.v := rfl
@[simp] theorem skip_i (s : State) : (skip s).i = s.i := rfl
@[simp] theorem skip_stack (s : State) : (skip s).stack = s.stack := rfl
@[simp] theorem skip_dt (s : State) : (skip s).dt = s.dt := rfl
@[simp] theorem skip_st (s : State) : (skip s).st = s.st := rfl
@[simp] theorem skip_keys (s : State) : (skip s).keys = s.keys := rfl
@[simp] theorem skip_fb (s : State) : (skip s).fb = s.fb := rfl
@[simp] theorem skip_mem (s : State) : (skip s).mem = s.mem := rfl
@[simp] theorem skip_programImage (s : State) : (skip s).programImage = s.programImage := rfl
@[simp] theorem skip_config (s : State) : (skip s).config = s.config := rfl
@[simp] theorem skip_fault (s : State) : (skip s).fault = s.fault := rfl
@[simp] theorem skip_draws (s : State) : (skip s).draws = s.draws := rfl
@[simp] theorem skip_pc (s : State) : (skip s).pc = s.pc + 2#16 := rfl

/-- What a skip does to PC (R63). -/
theorem skipIf_pc (c : Bool) (s : State) : (skipIf c s).pc = if c then s.pc + 2#16 else s.pc := by
  cases c <;> rfl

/-- A skip writes PC and nothing else (R64). -/
theorem skipIf_eq (c : Bool) (s : State) : skipIf c s = { s with pc := if c then s.pc + 2#16 else s.pc } := by
  cases c <;> rfl

/-! ## `drawRandom`, `drawKeyChoice` -/

@[simp] theorem drawRandom_fst (s : State) : (drawRandom s).1 = Config.randomByte s.draws := rfl
@[simp] theorem drawRandom_snd (s : State) : (drawRandom s).2 = { s with draws := s.draws + 1 } := rfl
@[simp] theorem drawKeyChoice_snd (S : List (Fin 16)) (s : State) :
    (drawKeyChoice S s).2 = { s with draws := s.draws + 1 } := rfl

/-- The draw is among the keys it is taken from (R103). -/
theorem drawKeyChoice_mem (k : Fin 16) (ks : List (Fin 16)) (s : State) :
    (drawKeyChoice (k :: ks) s).1 ∈ k :: ks := by
  have h : Config.keyChoice s.draws % (k :: ks).length < (k :: ks).length := Nat.mod_lt _ (by simp)
  simp only [drawKeyChoice, List.getD_eq_getElem?_getD, List.getElem?_eq_getElem h, Option.getD_some]
  exact List.getElem_mem h

/-- Every key of the set is what some number picks, so the free value shuts none out (R103, D10). -/
theorem every_key_is_some_pick (S : List (Fin 16)) {k : Fin 16} (h : k ∈ S) : ∃ c, S.getD (c % S.length) 0 = k := by
  obtain ⟨c, hc, rfl⟩ := List.getElem_of_mem h
  exact ⟨c, by rw [Nat.mod_eq_of_lt hc, List.getD_eq_getElem _ _ hc]⟩

/-- A key is in the pressed set exactly when it is pressed. -/
@[simp] theorem State.mem_pressedKeys (s : State) (k : Fin 16) : k ∈ s.pressedKeys ↔ s.key k = true := by
  simp [State.pressedKeys]

/-! ## The host's operations -/

@[simp] theorem decrementTimers_pc (s : State) : (decrementTimers s).pc = s.pc := rfl
@[simp] theorem decrementTimers_stack (s : State) : (decrementTimers s).stack = s.stack := rfl
@[simp] theorem decrementTimers_mem (s : State) : (decrementTimers s).mem = s.mem := rfl
@[simp] theorem decrementTimers_config (s : State) : (decrementTimers s).config = s.config := rfl
@[simp] theorem decrementTimers_programImage (s : State) : (decrementTimers s).programImage = s.programImage := rfl
@[simp] theorem decrementTimers_fault (s : State) : (decrementTimers s).fault = s.fault := rfl
@[simp] theorem decrementTimers_keys (s : State) : (decrementTimers s).keys = s.keys := rfl

@[simp] theorem hostReset_keys (s : State) : (hostReset s).keys = s.keys := rfl
@[simp] theorem hostReset_programImage (s : State) : (hostReset s).programImage = s.programImage := rfl
@[simp] theorem hostReset_config (s : State) : (hostReset s).config = s.config := rfl
@[simp] theorem hostReset_fault (s : State) : (hostReset s).fault = none := rfl
@[simp] theorem hostReset_pc (s : State) : (hostReset s).pc = s.config.programBase := rfl
@[simp] theorem hostReset_stack (s : State) : (hostReset s).stack = [] := rfl
@[simp] theorem hostReset_mem (s : State) : (hostReset s).mem = resetMemory s.config s.programImage := rfl

end Sys2Proof.Machine
end

