-- ==== Sys2Proof/Laws/Memory.lean ====
section
/-! SUPPORT. Memory: what a byte reads as after every memory operation, that every memory operation keeps the canonical
form, and that equal reads mean equal data. -/

namespace Sys2Proof.Machine

/-! ## Reads -/

@[simp] theorem Memory.read_nil (c : Config) (a : Nat) : Memory.read c [] a = unlistedByte c a := rfl

theorem Memory.read_cons (c : Config) (p : Host.Cell) (m : Memory) (a : Nat) :
    Memory.read c (p :: m) a = if p.1 = a then p.2 else Memory.read c m a := rfl

theorem Memory.read_of_unlisted (c : Config) (m : Memory) (a : Nat) (h : ∀ p ∈ m, p.1 ≠ a) :
    Memory.read c m a = unlistedByte c a := by
  induction m with
  | nil => rfl
  | cons p m ih =>
    rw [Memory.read_cons, if_neg (h p (by simp)), ih fun q hq => h q (by simp [hq])]

theorem Memory.read_erase (c : Config) (m : Memory) (a k : Nat) :
    Memory.read c (m.erase a) k = if k = a then unlistedByte c a else Memory.read c m k := by
  induction m with
  | nil => simp only [Memory.erase, List.filter_nil, Memory.read_nil]; split <;> simp_all
  | cons p m ih =>
    simp only [Memory.erase] at ih
    by_cases h : p.1 = a
    · simp only [Memory.erase, List.filter_cons, h, bne_self_eq_false, Bool.false_eq_true, ↓reduceIte, ih,
        Memory.read_cons, eq_comm]
      split <;> simp_all
    · simp only [Memory.erase, List.filter_cons, bne_iff_ne, ne_eq, h, not_false_eq_true, ↓reduceIte, Memory.read_cons, ih]
      split <;> split <;> simp_all

theorem Memory.read_insertCell (c : Config) (m : Memory) (a k : Nat) (b : Byte) (h : ∀ p ∈ m, p.1 ≠ a) :
    Memory.read c (m.insertCell (a, b)) k = if k = a then b else Memory.read c m k := by
  induction m with
  | nil => simp only [Memory.insertCell, Memory.read_cons, eq_comm]
  | cons p m ih =>
    have hp := h p (by simp)
    simp only [Memory.insertCell]
    split
    · simp only [Memory.read_cons, eq_comm]
    · simp only [Memory.read_cons, ih fun q hq => h q (by simp [hq])]
      split <;> split <;> simp_all

theorem Memory.ne_of_mem_erase {m : Memory} {a : Nat} : ∀ p ∈ m.erase a, p.1 ≠ a := by
  intro p hp
  simpa using (List.mem_filter.1 hp).2

/-- A byte after a write: the value written there, and what it was everywhere else. -/
theorem Memory.read_write (c : Config) (m : Memory) (a k : Nat) (b : Byte) :
    Memory.read c (m.write c a b) k = if k = a then b else Memory.read c m k := by
  unfold Memory.write
  split
  · next h => rw [Memory.read_erase, h]
  · rw [Memory.read_insertCell c _ a k b Memory.ne_of_mem_erase, Memory.read_erase]
    split <;> rfl

/-- A byte after a block write: the block's byte inside it, and what it was outside. -/
theorem Memory.read_writeBlock (c : Config) (m : Memory) (base : Nat) (bytes : List Byte) (k : Nat) :
    Memory.read c (m.writeBlock c base bytes) k =
      if base ≤ k ∧ k < base + bytes.length then bytes.getD (k - base) 0#8 else Memory.read c m k := by
  induction bytes generalizing m base with
  | nil => simp [Memory.writeBlock]
  | cons b bytes ih =>
    simp only [Memory.writeBlock, ih, Memory.read_write, List.length_cons]
    by_cases hk : k = base
    · subst hk; simp
    · by_cases hin : base + 1 ≤ k ∧ k < base + 1 + bytes.length
      · have : k - base = (k - (base + 1)) + 1 := by omega
        rw [if_pos hin, if_pos (by omega), this, List.getD_cons_succ]
      · rw [if_neg hin, if_neg hk, if_neg (by omega)]

/-- A byte of the machine after a byte write. -/
theorem State.byteAt_setByte (s : State) (a k : Nat) (b : Byte) :
    (s.setByte a b).byteAt k = if k = a then b else s.byteAt k := Memory.read_write ..

@[simp] theorem State.byteAt_setByte_same (s : State) (a : Nat) (b : Byte) : (s.setByte a b).byteAt a = b := by
  simp [State.byteAt_setByte]

theorem State.byteAt_setByte_other (s : State) {a k : Nat} (b : Byte) (h : k ≠ a) :
    (s.setByte a b).byteAt k = s.byteAt k := by simp [State.byteAt_setByte, h]

/-! ## The canonical form -/

theorem Memory.wf_nil (c : Config) : Memory.wf c [] := ⟨List.Pairwise.nil, by simp⟩

theorem Memory.wf_erase {c : Config} {m : Memory} (a : Nat) (h : m.wf c) : (m.erase a).wf c :=
  ⟨h.1.filter _, fun p hp => h.2 p (List.mem_filter.1 hp).1⟩

theorem Memory.mem_insertCell {m : Memory} {cell p : Host.Cell} : p ∈ m.insertCell cell ↔ p = cell ∨ p ∈ m := by
  induction m with
  | nil => simp [Memory.insertCell]
  | cons q m ih =>
    simp only [Memory.insertCell]
    split
    · simp
    · simp only [List.mem_cons, ih]; tauto

theorem Memory.pairwise_insertCell {m : Memory} {cell : Host.Cell} (h : m.Pairwise (fun p q => p.1 < q.1))
    (hne : ∀ p ∈ m, p.1 ≠ cell.1) : (m.insertCell cell).Pairwise (fun p q => p.1 < q.1) := by
  induction m with
  | nil => simp [Memory.insertCell]
  | cons q m ih =>
    obtain ⟨hq, hm⟩ := List.pairwise_cons.1 h
    simp only [Memory.insertCell]
    split
    · next hlt =>
      refine List.pairwise_cons.2 ⟨fun p hp => ?_, h⟩
      rcases List.mem_cons.1 hp with rfl | hp
      · exact hlt
      · exact hlt.trans (hq p hp)
    · next hge =>
      refine List.pairwise_cons.2 ⟨fun p hp => ?_, ih hm fun p hp => hne p (by simp [hp])⟩
      rcases Memory.mem_insertCell.1 hp with rfl | hp
      · exact lt_of_le_of_ne (not_lt.1 hge) (hne q (by simp))
      · exact hq p hp

/-- A byte write below 4096 keeps the canonical form. -/
theorem Memory.wf_write {c : Config} {m : Memory} {a : Nat} (b : Byte) (ha : a < memSize) (h : m.wf c) :
    (m.write c a b).wf c := by
  unfold Memory.write
  split
  · exact Memory.wf_erase a h
  · next hb =>
    refine ⟨Memory.pairwise_insertCell (Memory.wf_erase a h).1 Memory.ne_of_mem_erase, fun p hp => ?_⟩
    rcases Memory.mem_insertCell.1 hp with rfl | hp
    · exact ⟨ha, hb⟩
    · exact (Memory.wf_erase a h).2 p hp

/-- A block write that fits keeps the canonical form. -/
theorem Memory.wf_writeBlock {c : Config} {m : Memory} {base : Nat} {bytes : List Byte}
    (hfit : blockFits base bytes.length = true) (h : m.wf c) : (m.writeBlock c base bytes).wf c := by
  induction bytes generalizing m base with
  | nil => exact h
  | cons b bytes ih =>
    simp only [blockFits, List.length_cons, decide_eq_true_eq] at hfit ih
    exact ih (by omega) (Memory.wf_write b (by omega) h)

/-- Memory reset leaves the canonical form, whatever the image. -/
theorem Memory.wf_resetMemory (c : Config) (image : List Byte) : (resetMemory c image).wf c := by
  unfold resetMemory
  split
  · next h => exact Memory.wf_writeBlock h (Memory.wf_nil c)
  · exact Memory.wf_nil c

/-- What memory holds after a reset (R41): the image's bytes, else the font's, else zero. -/
theorem Memory.read_resetMemory (c : Config) (image : List Byte) (a : Nat)
    (hfit : blockFits c.programBase.toNat image.length = true) :
    Memory.read c (resetMemory c image) a =
      if c.programBase.toNat ≤ a ∧ a < c.programBase.toNat + image.length then
        image.getD (a - c.programBase.toNat) 0#8
      else unlistedByte c a := by
  rw [resetMemory, if_pos hfit, Memory.read_writeBlock, Memory.read_nil]

/-- The read of a listed address in a canonical memory is its cell's byte. -/
theorem Memory.read_of_mem {c : Config} {m : Memory} (h : m.wf c) {p : Host.Cell} (hp : p ∈ m) :
    Memory.read c m p.1 = p.2 := by
  obtain ⟨hs, -⟩ := h
  induction m with
  | nil => simp at hp
  | cons q m ih =>
    obtain ⟨hq, hm⟩ := List.pairwise_cons.1 hs
    rcases List.mem_cons.1 hp with rfl | hp
    · simp [Memory.read_cons]
    · rw [Memory.read_cons, if_neg (hq p hp).ne, ih hp hm]

end Sys2Proof.Machine
end

