-- ==== Sys2Proof/Laws/Ops.lean ====
section
/-! SUPPORT. What each shared operation can do, said once: sequencing, the error, the memory, stack, framebuffer and loop
primitives. -/

namespace Sys2Proof.Machine

/-! ## Sequencing -/

@[simp] theorem andThen_next {α β : Type} (a : α) (f : α → Result β) : andThen (.next a) f = f a := rfl
@[simp] theorem andThen_fault {α β : Type} (e : Fault) (f : α → Result β) : andThen (.fault e) f = .fault e := rfl
@[simp] theorem andThen_refused {α β : Type} (e : Refusal) (f : α → Result β) : andThen (.refused e) f = .refused e := rfl
@[simp] theorem andThen_raise {α β : Type} (e : Error) (s : State) (f : α → Result β) :
    andThen (raise e s) f = raise e s := rfl

/-- A sequence answers `next` exactly when both parts do. -/
theorem andThen_eq_next {α β : Type} {r : Result α} {f : α → Result β} {b : β} :
    andThen r f = .next b ↔ ∃ a, r = .next a ∧ f a = .next b := by
  cases r <;> simp [andThen]

/-- A sequence stops with an error exactly when its first part does, or the second after it. -/
theorem andThen_eq_fault {α β : Type} {r : Result α} {f : α → Result β} {e : Fault} :
    andThen r f = .fault e ↔ r = .fault e ∨ ∃ a, r = .next a ∧ f a = .fault e := by
  cases r <;> simp [andThen]

/-- A sequence has no move exactly when its first part has none, or the second after it. -/
theorem andThen_eq_refused {α β : Type} {r : Result α} {f : α → Result β} {e : Refusal} :
    andThen r f = .refused e ↔ r = .refused e ∨ ∃ a, r = .next a ∧ f a = .refused e := by
  cases r <;> simp [andThen]

theorem andThen_assoc {α β γ : Type} (r : Result α) (f : α → Result β) (g : β → Result γ) :
    andThen (andThen r f) g = andThen r fun a => andThen (f a) g := by
  cases r <;> rfl

/-! ## The error -/

/-- Taking an error never answers `next`. -/
@[simp] theorem raise_ne_next {α : Type} (e : Error) (s : State) (a : α) : raise e s ≠ .next a := by simp [raise]

/-- Taking an error: the error, and the state with the fault status set and nothing else changed (R119, R120). -/
theorem raise_eq_fault {α : Type} {e e' : Error} {s t : State} :
    (raise e s : Result α) = .fault (.raised e' t) ↔ e' = e ∧ t = { s with fault := some e } := by
  simp only [raise, Host.Outcome.fault.injEq, Fault.raised.injEq, eq_comm]

/-! ## Memory primitives (R35, R36) -/

theorem memRead_inside {a : Nat} (s : State) (h : a < memSize) : memRead a s = .next (s.byteAt a) := by
  simp [memRead, h]

theorem memRead_outside {a : Nat} (s : State) (h : memSize ≤ a) :
    memRead a s = raise (.addressOutOfBounds a memSize) s := by simp [memRead, h]

theorem memWrite_inside {a : Nat} (b : Byte) (s : State) (h : a < memSize) :
    memWrite a b s = .next (s.setByte a b) := by simp [memWrite, h]

theorem memWrite_outside {a : Nat} (b : Byte) (s : State) (h : memSize ≤ a) :
    memWrite a b s = raise (.addressOutOfBounds a memSize) s := by simp [memWrite, h]

/-- A read that answers read an address inside memory. -/
theorem memRead_eq_next {a : Nat} {s : State} {b : Byte} :
    memRead a s = .next b ↔ a < memSize ∧ b = s.byteAt a := by
  by_cases h : a < memSize
  · simp [memRead_inside s h, h, eq_comm]
  · simp [memRead_outside s (not_lt.1 h), h]

/-- A write that answers wrote an address inside memory. -/
theorem memWrite_eq_next {a : Nat} {b : Byte} {s t : State} :
    memWrite a b s = .next t ↔ a < memSize ∧ t = s.setByte a b := by
  by_cases h : a < memSize
  · simp [memWrite_inside b s h, h, eq_comm]
  · simp [memWrite_outside b s (not_lt.1 h), h]

/-- A read that fails raises one error and leaves the state but for the fault status. -/
theorem memRead_eq_fault {a : Nat} {s t : State} {e : Error} :
    memRead a s = .fault (.raised e t) ↔
      memSize ≤ a ∧ e = .addressOutOfBounds a memSize ∧ t = { s with fault := some e } := by
  by_cases h : memSize ≤ a
  · rw [memRead_outside s h, raise_eq_fault]
    constructor
    · rintro ⟨rfl, rfl⟩; exact ⟨h, rfl, rfl⟩
    · rintro ⟨-, rfl, rfl⟩; exact ⟨rfl, rfl⟩
  · simp [memRead_inside s (not_le.1 h), h]

/-- A write that fails raises one error and leaves the state but for the fault status. -/
theorem memWrite_eq_fault {a : Nat} {b : Byte} {s t : State} {e : Error} :
    memWrite a b s = .fault (.raised e t) ↔
      memSize ≤ a ∧ e = .addressOutOfBounds a memSize ∧ t = { s with fault := some e } := by
  by_cases h : memSize ≤ a
  · rw [memWrite_outside b s h, raise_eq_fault]
    constructor
    · rintro ⟨rfl, rfl⟩; exact ⟨h, rfl, rfl⟩
    · rintro ⟨-, rfl, rfl⟩; exact ⟨rfl, rfl⟩
  · simp [memWrite_inside b s (not_le.1 h), h]

/-- A block that fits is copied (R38). -/
theorem load_fits {base : Nat} {bytes : List Byte} (s : State) (h : blockFits base bytes.length = true) :
    load base bytes s = .next { s with mem := s.mem.writeBlock s.config base bytes } := if_pos h

/-- A block that does not fit raises before anything is written (R38). -/
theorem load_overflows {base : Nat} {bytes : List Byte} (s : State) (h : ¬ blockFits base bytes.length = true) :
    load base bytes s = raise (.addressOutOfBounds (base + bytes.length - 1) memSize) s := if_neg h

/-! ## The stack (R20, R21) -/

theorem push_eq_next {v : Word} {s t : State} :
    push v s = .next t ↔ s.stack.length < stackMaxDepth ∧ t = { s with stack := s.stack ++ [v] } := by
  by_cases h : stackMaxDepth ≤ s.stack.length
  · simp [push, h]
  · simp only [push, h, if_false, Host.Outcome.next.injEq, not_le.1 h, true_and, eq_comm]

theorem push_full {s : State} (v : Word) (h : stackMaxDepth ≤ s.stack.length) :
    push v s = raise .stackOverflow s := by simp [push, h]

theorem push_free {s : State} (v : Word) (h : s.stack.length < stackMaxDepth) :
    push v s = .next { s with stack := s.stack ++ [v] } := by simp [push]; omega

theorem pop_empty {s : State} (h : s.stack = []) : pop s = raise .stackUnderflow s := by simp [pop, h]

theorem pop_append {s : State} {rest : List Word} {v : Word} (h : s.stack = rest ++ [v]) :
    pop s = .next (v, { s with stack := rest }) := by simp [pop, h]

/-- A pop either raises on an empty stack or hands back the last entry. -/
theorem pop_cases (s : State) :
    (s.stack = [] ∧ pop s = raise .stackUnderflow s) ∨
      ∃ rest v, s.stack = rest ++ [v] ∧ pop s = .next (v, { s with stack := rest }) := by
  rcases List.eq_nil_or_concat s.stack with h | ⟨rest, v, h⟩
  · exact .inl ⟨h, pop_empty h⟩
  · rw [List.concat_eq_append] at h
    exact .inr ⟨rest, v, h, pop_append h⟩

/-! ## Loops -/

@[simp] theorem forEach_zero {α : Type} (first : Nat) (body : Nat → α → Result α) (a : α) :
    forEach 0 first body a = .next a := rfl

theorem forEach_succ {α : Type} (count first : Nat) (body : Nat → α → Result α) (a : α) :
    forEach (count + 1) first body a = andThen (body first a) (forEach count (first + 1) body) := rfl

/-- A loop's last iteration taken apart: first the others, then it. -/
theorem forEach_succ_last {α : Type} (count first : Nat) (body : Nat → α → Result α) (a : α) :
    forEach (count + 1) first body a = andThen (forEach count first body a) (body (first + count)) := by
  induction count generalizing first a with
  | zero => rw [forEach_succ, forEach_zero]; cases h : body first a <;> simp_all [andThen]
  | succ n ih =>
    rw [forEach_succ, forEach_succ, andThen_assoc]
    congr 1; funext b
    rw [ih, Nat.add_right_comm, Nat.add_assoc]

/-- A loop in two parts. -/
theorem forEach_add {α : Type} (m n first : Nat) (body : Nat → α → Result α) (a : α) :
    forEach (m + n) first body a = andThen (forEach m first body a) (forEach n (first + m) body) := by
  induction m generalizing first a with
  | zero => simp
  | succ m ih =>
    rw [Nat.succ_add, forEach_succ, forEach_succ, andThen_assoc]
    exact congrArg _ (funext fun b => by rw [ih, Nat.add_right_comm, Nat.add_assoc])

/-- A loop whose first `m` iterations go on and whose next one stops, stops there. -/
theorem forEach_stops {α : Type} {m count first : Nat} {body : Nat → α → Result α} {a b : α} {e : Fault}
    (hm : m < count) (hgo : forEach m first body a = .next b) (hstop : body (first + m) b = .fault e) :
    forEach count first body a = .fault e := by
  obtain ⟨n, rfl⟩ : ∃ n, count = m + (n + 1) := ⟨count - m - 1, by omega⟩
  rw [forEach_add, hgo, andThen_next, forEach_succ, hstop, andThen_fault]

/-- A relation every iteration keeps, the whole loop keeps. -/
theorem forEach_keeps {α : Type} {P : α → Prop} {body : Nat → α → Result α}
    (hbody : ∀ k a b, P a → body k a = .next b → P b) {count first : Nat} {a b : α} (ha : P a)
    (h : forEach count first body a = .next b) : P b := by
  induction count generalizing first a with
  | zero => cases h; exact ha
  | succ n ih =>
    obtain ⟨c, hc, h⟩ := andThen_eq_next.1 h
    exact ih (hbody _ _ _ ha hc) h

/-- A loop that stops with an error stopped in some iteration, in a state the earlier ones kept the relation for. -/
theorem forEach_fault {α : Type} {P : α → Prop} {body : Nat → α → Result α}
    (hbody : ∀ k a b, P a → body k a = .next b → P b) {count first : Nat} {a : α} {e : Fault} (ha : P a)
    (h : forEach count first body a = .fault e) :
    ∃ k b, first ≤ k ∧ k < first + count ∧ P b ∧ body k b = .fault e := by
  induction count generalizing first a with
  | zero => cases h
  | succ n ih =>
    rcases andThen_eq_fault.1 h with h | ⟨b, hb, h⟩
    · exact ⟨first, a, le_rfl, by omega, ha, h⟩
    · obtain ⟨k, c, h1, h2, hc⟩ := ih (hbody _ _ _ ha hb) h
      exact ⟨k, c, by omega, by omega, hc⟩

/-! ## The framebuffer (R25) -/

@[simp] theorem Framebuffer.get_put (fb : Framebuffer) (px qx : Fin 64) (py qy : Fin 32) (on : Bool) :
    Framebuffer.get (Framebuffer.put fb px py on) qx qy = if qx = px ∧ qy = py then on else Framebuffer.get fb qx qy := by
  simp only [Framebuffer.get, Framebuffer.put, Fin.getElem_fin, Vector.getElem_set, Fin.ext_iff]
  by_cases hx : px.val = qx.val
  · by_cases hy : py.val = qy.val
    · simp [hx, hy]
    · simp [hx, hy, Ne.symm hy]
  · simp [hx, Ne.symm hx]

/-- A toggle flips its pixel and no other. -/
theorem Framebuffer.get_toggle (fb : Framebuffer) (px qx : Fin 64) (py qy : Fin 32) :
    Framebuffer.get (Framebuffer.toggle fb px py) qx qy =
      if qx = px ∧ qy = py then !Framebuffer.get fb px py else Framebuffer.get fb qx qy := by
  simp only [Framebuffer.toggle, Framebuffer.get_put]

@[simp] theorem Framebuffer.get_clear (px : Fin 64) (py : Fin 32) : Framebuffer.get Framebuffer.clear px py = false := by
  simp [Framebuffer.get, Framebuffer.clear]

/-! ## The flag writer (R74) -/

@[simp] theorem writeResultAndFlag_pc (x : Reg) (r : Byte) (f : Bool) (s : State) :
    (writeResultAndFlag x r f s).pc = s.pc := by unfold writeResultAndFlag; split <;> rfl

/-- The flag writer changes the register file and nothing else. -/
theorem writeResultAndFlag_eq (x : Reg) (r : Byte) (f : Bool) (s : State) :
    writeResultAndFlag x r f s = { s with v := (writeResultAndFlag x r f s).v } := by
  unfold writeResultAndFlag; split <;> rfl

/-- What every register holds after a result and a flag have been written. -/
theorem getV_writeResultAndFlag (x y : Reg) (r : Byte) (f : Bool) (s : State) :
    (writeResultAndFlag x r f s).getV y =
      if y = x ∧ (x ≠ regVF ∨ s.config.flagWriteOrder = .resultLast) then r
      else if y = regVF then flagByte f else s.getV y := by
  unfold writeResultAndFlag
  cases s.config.flagWriteOrder <;> simp only [State.getV_setV] <;> by_cases hx : x = regVF <;>
    by_cases hy : y = x <;> simp_all

/-- A flag is 1 or 0 (R73). -/
@[simp] theorem flagByte_toNat (f : Bool) : (flagByte f).toNat = if f then 1 else 0 := by cases f <;> rfl

end Sys2Proof.Machine
end

