-- ==== Sys2Proof/Laws/Frames.lean ====
section
/-! SUPPORT. The frame relation's own laws, the frames of the shared operations, and what the two block transfers and the
three digit stores do. -/

namespace Sys2Proof.Machine

/-! ## The frame relation -/

theorem changesOnly_refl (parts : Part → Prop) (s : State) : changesOnly parts s s := by
  intro p _; cases p <;> rfl

theorem agreeAt_trans {s t u : State} {p : Part} (h : agreeAt s t p) (k : agreeAt t u p) : agreeAt s u p := by
  cases p <;> exact k.trans h

theorem changesOnly_trans {parts : Part → Prop} {s t u : State} (h : changesOnly parts s t)
    (k : changesOnly parts t u) : changesOnly parts s u :=
  fun p hp => agreeAt_trans (h p hp) (k p hp)

theorem changesOnly_mono {parts more : Part → Prop} {s t : State} (hsub : ∀ p, parts p → more p)
    (h : changesOnly parts s t) : changesOnly more s t :=
  fun p hp => h p fun hp' => hp (hsub p hp')

/-! ## Frames of the shared operations -/

/-- A register write changes that register alone. -/
theorem changesOnly_setV (x : Reg) (b : Byte) (s : State) : changesOnly (· = .reg x) s (s.setV x b) := by
  intro p hp
  cases p with
  | reg r => exact State.getV_setV_other _ _ (by simpa using hp)
  | _ => rfl

/-- A byte write changes that byte alone. -/
theorem changesOnly_setByte (a : Nat) (b : Byte) (s : State) : changesOnly (· = .byte a) s (s.setByte a b) := by
  intro p hp
  cases p with
  | byte k => exact State.byteAt_setByte_other _ _ (by simpa using hp)
  | _ => rfl

/-- A skip changes PC alone (R64). -/
theorem changesOnly_skipIf (c : Bool) (s : State) : changesOnly (· = .counter) s (skipIf c s) := by
  intro p hp
  rw [skipIf_eq]
  cases p <;> first | rfl | exact absurd rfl hp

/-- Taking an error changes the fault status alone (R119). -/
theorem changesOnly_fault (e : Error) (s : State) : changesOnly (· = .faultStatus) s { s with fault := some e } := by
  intro p hp
  cases p <;> first | rfl | exact absurd rfl hp

/-- An error taken in a state reached by allowed changes stops with it. -/
theorem stopsWith_raise {α : Type} {r : Result α} {e : Error} {parts : Part → Prop} {s t : State}
    (hr : r = raise e t) (h : changesOnly parts s t) : stopsWith r e parts s { t with fault := some e } :=
  ⟨hr, rfl, changesOnly_trans (changesOnly_mono (fun _ => .inl) h)
    (changesOnly_mono (fun _ => .inr) (changesOnly_fault e t))⟩

/-- The flag writer changes its destination and VF alone (R13, R74). -/
theorem changesOnly_writeResultAndFlag (x : Reg) (r : Byte) (f : Bool) (s : State) :
    changesOnly (fun p => p = .reg x ∨ p = .reg regVF) s (writeResultAndFlag x r f s) := by
  intro p hp
  cases p with
  | reg q =>
    simp only [Part.reg.injEq, not_or] at hp
    simp only [agreeAt, getV_writeResultAndFlag, hp, false_and, if_false]
  | _ => rw [writeResultAndFlag_eq]; rfl

/-! ## Block transfers (R93, R94) -/

@[simp] theorem regOfNat_val (r : Reg) : regOfNat r.val = r := Fin.ext (by simp [regOfNat])

/-- The first `count` stores of Fx55, all inside memory: the bytes stored, and nothing else changed. -/
theorem storeRegs_inside (count : Nat) (s : State) (h : ∀ k, k < count → s.dataAddress k < memSize) :
    ∃ t, forEach count 0 (fun k t => memWrite (t.dataAddress k) (t.getV (regOfNat k)) t) s = .next t ∧
      (∀ k, k < count → t.byteAt (s.dataAddress k) = s.getV (regOfNat k)) ∧
      changesOnly (fun p => ∃ k, k < count ∧ p = .byte (s.dataAddress k)) s t := by
  induction count with
  | zero => exact ⟨s, rfl, by simp, changesOnly_refl _ s⟩
  | succ n ih =>
    obtain ⟨t, ht, hb, hf⟩ := ih fun k hk => h k (by omega)
    have hi : t.i = s.i := hf .index (by simp)
    have hv : t.getV (regOfNat n) = s.getV (regOfNat n) := hf (.reg _) (by simp)
    have ha : t.dataAddress n = s.dataAddress n := by simp [State.dataAddress, hi]
    refine ⟨t.setByte (s.dataAddress n) (s.getV (regOfNat n)), ?_, ?_, ?_⟩
    · rw [forEach_succ_last, ht, andThen_next, Nat.zero_add, ha, hv, memWrite_inside _ _ (h n (by omega))]
    · intro k hk
      rcases Nat.lt_succ_iff_lt_or_eq.1 hk with hk | rfl
      · rw [State.byteAt_setByte_other _ _ (by simp only [State.dataAddress]; omega), hb k hk]
      · simp
    · exact changesOnly_trans (changesOnly_mono (fun p ⟨k, hk, hp⟩ => ⟨k, by omega, hp⟩) hf)
        (changesOnly_mono (fun p hp => ⟨n, by omega, hp⟩) (changesOnly_setByte _ _ t))

/-- The first `count` loads of Fx65, all inside memory: the registers loaded, and nothing else changed. -/
theorem loadRegs_inside (count : Nat) (hc : count ≤ 16) (s : State)
    (h : ∀ k, k < count → s.dataAddress k < memSize) :
    ∃ t, forEach count 0
        (fun k t => andThen (memRead (t.dataAddress k) t) fun b => .next (t.setV (regOfNat k) b)) s = .next t ∧
      (∀ r : Reg, r.val < count → t.getV r = s.byteAt (s.dataAddress r.val)) ∧
      changesOnly (fun p => ∃ r : Reg, r.val < count ∧ p = .reg r) s t := by
  induction count with
  | zero => exact ⟨s, rfl, by simp, changesOnly_refl _ s⟩
  | succ n ih =>
    obtain ⟨t, ht, hb, hf⟩ := ih (by omega) fun k hk => h k (by omega)
    have hi : t.i = s.i := hf .index (by simp)
    have hm : t.byteAt (s.dataAddress n) = s.byteAt (s.dataAddress n) := hf (.byte _) (by simp)
    have ha : t.dataAddress n = s.dataAddress n := by simp [State.dataAddress, hi]
    have hn : (regOfNat n).val = n := by simp [regOfNat]; omega
    refine ⟨t.setV (regOfNat n) (s.byteAt (s.dataAddress n)), ?_, ?_, ?_⟩
    · rw [forEach_succ_last, ht, andThen_next, Nat.zero_add, ha, memRead_inside _ (h n (by omega)), andThen_next, hm]
    · intro r hr
      by_cases hrn : r = regOfNat n
      · subst hrn; rw [State.getV_setV_same, hn]
      · rw [State.getV_setV_other _ _ hrn, hb r]
        rcases Nat.lt_succ_iff_lt_or_eq.1 hr with hr | hr
        · exact hr
        · exact absurd (Fin.ext (hr.trans hn.symm)) hrn
    · exact changesOnly_trans (changesOnly_mono (fun p ⟨k, hk, hp⟩ => ⟨k, by omega, hp⟩) hf)
        (changesOnly_mono (fun p hp => ⟨regOfNat n, by omega, hp⟩) (changesOnly_setV _ _ t))

/-- How many bytes from `I` lie inside memory: all of them below, the next one not (R113). -/
theorem dataAddress_lt_iff (s : State) (k : Nat) : s.dataAddress k < memSize ↔ k < bytesInside s := by
  simp only [State.dataAddress, bytesInside]; omega

/-- The digits of a byte as numbers (R91). -/
theorem decimalDigits_toNat (b : Byte) :
    (decimalDigits b).1.toNat = digitAt b.toNat 0 ∧ (decimalDigits b).2.1.toNat = digitAt b.toNat 1 ∧
      (decimalDigits b).2.2.toNat = digitAt b.toNat 2 := by
  have := b.isLt
  simp only [decimalDigits, digitAt, BitVec.toNat_ofNat]
  omega

end Sys2Proof.Machine
end

