-- ==== Sys2Proof/Laws/Display.lean ====
section
/-! SUPPORT. What plotting one row of a sprite does to the pixels and the collision flag (R96, R97, R98, R99). -/

namespace Sys2Proof.Machine

/-- Bit `b` below `count` of a sprite row is set and lands on column `px` (R98). -/
def bitOnColumn (ox row : Byte) (count : Nat) (px : Fin 64) : Prop :=
  ∃ b < count, spriteBit row b = true ∧ spriteColumn ox b = px

/-- Two bits of one row land on different columns (R99). -/
theorem spriteColumn_inj {ox : Byte} {b c : Nat} (hb : b < 8) (hc : c < 8)
    (h : spriteColumn ox b = spriteColumn ox c) : b = c := by
  simp only [spriteColumn, Fin.ext_iff, Fin.val_ofNat] at h
  omega

/-- Two rows of one draw land on different screen rows (R99). -/
theorem spriteRow_inj {oy : Byte} {r q : Nat} (hr : r < 16) (hq : q < 16)
    (h : spriteRow oy r = spriteRow oy q) : r = q := by
  simp only [spriteRow, Fin.ext_iff, Fin.val_ofNat] at h
  omega

/-- The pixels after a row's first bits: those a set bit lands on are flipped, the others are as before. -/
theorem get_plotBits (ox oy row : Byte) (r count : Nat) (hc : count ≤ 8) (p : Framebuffer × Bool) (px : Fin 64)
    (py : Fin 32) :
    (py = spriteRow oy r ∧ bitOnColumn ox row count px →
      Framebuffer.get (plotBits ox oy row r count p).1 px py = !Framebuffer.get p.1 px py) ∧
    (¬ (py = spriteRow oy r ∧ bitOnColumn ox row count px) →
      Framebuffer.get (plotBits ox oy row r count p).1 px py = Framebuffer.get p.1 px py) := by
  induction count with
  | zero => exact ⟨fun ⟨_, b, hb, _⟩ => absurd hb (by omega), fun _ => rfl⟩
  | succ n ih =>
    obtain ⟨ihp, ihn⟩ := ih (by omega)
    have hfresh : ¬ bitOnColumn ox row n (spriteColumn ox n) := fun ⟨b, hb, _, hcol⟩ => by
      have := spriteColumn_inj (by omega) (by omega) hcol; omega
    have hsucc : bitOnColumn ox row (n + 1) px ↔
        bitOnColumn ox row n px ∨ (spriteBit row n = true ∧ spriteColumn ox n = px) := by
      simp only [bitOnColumn, Nat.lt_succ_iff_lt_or_eq]
      constructor
      · rintro ⟨b, hb | rfl, h⟩
        exacts [.inl ⟨b, hb, h⟩, .inr h]
      · rintro (⟨b, hb, h⟩ | h)
        exacts [⟨b, .inl hb, h⟩, ⟨n, .inr rfl, h⟩]
    simp only [plotBits, plotBit]
    by_cases hbit : spriteBit row n = true
    · rw [if_pos hbit, Framebuffer.get_toggle]
      by_cases hhere : px = spriteColumn ox n ∧ py = spriteRow oy r
      · obtain ⟨rfl, rfl⟩ := hhere
        simp [hsucc, hbit, ihn fun h => hfresh h.2]
      · rw [if_neg hhere, hsucc]
        constructor
        · rintro ⟨h1, h2 | ⟨-, h2⟩⟩
          exacts [ihp ⟨h1, h2⟩, absurd ⟨h2.symm, h1⟩ hhere]
        · exact fun h => ihn fun h' => h ⟨h'.1, .inl h'.2⟩
    · simpa [hbit, hsucc] using ⟨fun h1 h2 => ihp ⟨h1, h2⟩, fun h => ihn fun h' => h h'.1 h'.2⟩

/-- The collision flag after a row's first bits: set before, or some set bit landed on a pixel that was on (R97). -/
theorem collision_plotBits (ox oy row : Byte) (r count : Nat) (hc : count ≤ 8) (p : Framebuffer × Bool) :
    (plotBits ox oy row r count p).2 = true ↔ p.2 = true ∨
      ∃ px, bitOnColumn ox row count px ∧ Framebuffer.get p.1 px (spriteRow oy r) = true := by
  induction count with
  | zero => simp [plotBits, bitOnColumn]
  | succ n ih =>
    have ih := ih (by omega)
    have hfresh : ¬ bitOnColumn ox row n (spriteColumn ox n) := fun ⟨b, hb, _, hcol⟩ => by
      have := spriteColumn_inj (by omega) (by omega) hcol; omega
    have hsame := (get_plotBits ox oy row r n (by omega) p (spriteColumn ox n) (spriteRow oy r)).2
      fun h => hfresh h.2
    simp only [plotBits, plotBit]
    by_cases hbit : spriteBit row n = true
    · rw [if_pos hbit]
      simp only [Bool.or_eq_true, ih, hsame]
      constructor
      · rintro ((h | ⟨px, ⟨b, hb, h⟩, hp⟩) | h)
        · exact .inl h
        · exact .inr ⟨px, ⟨b, by omega, h⟩, hp⟩
        · exact .inr ⟨_, ⟨n, by omega, hbit, rfl⟩, h⟩
      · rintro (h | ⟨px, ⟨b, hb, h⟩, hp⟩)
        · exact .inl (.inl h)
        · rcases Nat.lt_succ_iff_lt_or_eq.1 hb with hb | rfl
          · exact .inl (.inr ⟨px, ⟨b, hb, h⟩, hp⟩)
          · obtain ⟨-, rfl⟩ := h; exact .inr hp
    · rw [if_neg hbit, ih]
      refine or_congr_right ⟨fun ⟨px, ⟨b, hb, h⟩, hp⟩ => ⟨px, ⟨b, by omega, h⟩, hp⟩, fun ⟨px, ⟨b, hb, h⟩, hp⟩ => ?_⟩
      rcases Nat.lt_succ_iff_lt_or_eq.1 hb with hb | rfl
      · exact ⟨px, ⟨b, hb, h⟩, hp⟩
      · exact absurd h.1 hbit

/-- One row of a draw answers a row only where its byte is inside memory, and then changes the pixels alone. -/
theorem drawRow_eq_next {ox oy : Byte} {r : Nat} {p q : State × Bool} :
    drawRow ox oy r p = .next q ↔ p.1.dataAddress r < memSize ∧
      q = ({ p.1 with fb := (plotBits ox oy (p.1.byteAt (p.1.dataAddress r)) r 8 (p.1.fb, p.2)).1 },
        (plotBits ox oy (p.1.byteAt (p.1.dataAddress r)) r 8 (p.1.fb, p.2)).2) := by
  simp only [drawRow, andThen_eq_next, memRead_eq_next, Host.Outcome.next.injEq]
  constructor
  · rintro ⟨b, ⟨h, rfl⟩, rfl⟩; exact ⟨h, rfl⟩
  · rintro ⟨h, rfl⟩; exact ⟨_, ⟨h, rfl⟩, rfl⟩

/-- A sprite's first `n + 1` rows cover what its first `n` rows cover and what row `n` does. -/
theorem spriteCovers_succ (s : State) (x y : Reg) (n : Nat) (px : Fin 64) (py : Fin 32) :
    spriteCovers s x y (n + 1) px py ↔ spriteCovers s x y n px py ∨
      (py = spriteRow (s.getV y) n ∧ bitOnColumn (s.getV x) (s.byteAt (s.dataAddress n)) 8 px) := by
  constructor
  · rintro ⟨r, b, hr, hb, hset, hx, hy⟩
    rcases Nat.lt_succ_iff_lt_or_eq.1 hr with hr | rfl
    · exact .inl ⟨r, b, hr, hb, hset, hx, hy⟩
    · exact .inr ⟨Fin.ext hy, b, hb, hset, Fin.ext hx.symm⟩
  · rintro (⟨r, b, hr, hb, hset, hx, hy⟩ | ⟨rfl, b, hb, hset, rfl⟩)
    · exact ⟨r, b, by omega, hb, hset, hx, hy⟩
    · exact ⟨n, b, by omega, hb, hset, rfl, rfl⟩

/-- Row `n` of a draw of at most 16 rows lands on pixels no earlier row covers (R99). -/
theorem not_spriteCovers_row (s : State) (x y : Reg) {n : Nat} (hn : n < 16) (px : Fin 64) :
    ¬ spriteCovers s x y n px (spriteRow (s.getV y) n) := by
  rintro ⟨r, b, hr, -, -, -, hy⟩
  have := spriteRow_inj (r := r) (q := n) (by omega) hn (Fin.ext hy.symm)
  omega

/-- The first `count` rows of a draw, all inside memory: the screen XOR the sprite, the collision flag, and nothing
else changed (R96, R97, R99). -/
theorem drawRows_inside (x y : Reg) (count : Nat) (hc : count ≤ 16) (s : State)
    (h : ∀ k, k < count → s.dataAddress k < memSize) :
    ∃ t c, forEach count 0 (drawRow (s.getV x) (s.getV y)) (s, false) = .next (t, c) ∧ spriteXored x y count s t ∧
      (c = true ↔ ∃ px py, spriteCovers s x y count px py ∧ s.pixel px py = true) ∧
      changesOnly (fun p => ∃ px py, p = .pixel px py) s t := by
  induction count with
  | zero =>
    have hno : ∀ px py, ¬ spriteCovers s x y 0 px py := fun px py ⟨r, b, hr, _⟩ => absurd hr (by omega)
    exact ⟨s, false, rfl, fun px py => ⟨fun hcov => absurd hcov (hno px py), fun _ => rfl⟩, by simp [hno],
      changesOnly_refl _ s⟩
  | succ n ih =>
    obtain ⟨t, c, ht, hx, hcol, hf⟩ := ih (by omega) fun k hk => h k (by omega)
    have hi : t.i = s.i := hf .index (by simp)
    have hb : t.byteAt (s.dataAddress n) = s.byteAt (s.dataAddress n) := hf (.byte _) (by simp)
    have ha : t.dataAddress n = s.dataAddress n := by simp [State.dataAddress, hi]
    have hold : ∀ px, Framebuffer.get t.fb px (spriteRow (s.getV y) n) = s.pixel px (spriteRow (s.getV y) n) :=
      fun px => (hx px _).2 (not_spriteCovers_row s x y (by omega) px)
    refine ⟨{ t with fb := (plotBits (s.getV x) (s.getV y) (s.byteAt (s.dataAddress n)) n 8 (t.fb, c)).1 },
      (plotBits (s.getV x) (s.getV y) (s.byteAt (s.dataAddress n)) n 8 (t.fb, c)).2, ?_, ?_, ?_, ?_⟩
    · rw [forEach_succ_last, ht, andThen_next, Nat.zero_add, drawRow_eq_next, ha, hb]
      exact ⟨h n (by omega), rfl⟩
    · intro px py
      obtain ⟨hp, hn⟩ := get_plotBits (s.getV x) (s.getV y) (s.byteAt (s.dataAddress n)) n 8 le_rfl (t.fb, c) px py
      rw [spriteCovers_succ]
      constructor
      · rintro (hcov | hrow)
        · refine (hn ?_).trans ((hx px py).1 hcov)
          rintro ⟨rfl, -⟩
          exact not_spriteCovers_row s x y (by omega) px hcov
        · obtain ⟨rfl, hbits⟩ := hrow
          exact (hp ⟨rfl, hbits⟩).trans (congrArg _ (hold px))
      · intro hno
        exact (hn fun hrow => hno (.inr hrow)).trans ((hx px py).2 fun hcov => hno (.inl hcov))
    · rw [collision_plotBits _ _ _ _ _ le_rfl, hcol]
      simp only [hold, spriteCovers_succ]
      constructor
      · rintro (⟨px, py, hcov, hon⟩ | ⟨px, hbits, hon⟩)
        · exact ⟨px, py, .inl hcov, hon⟩
        · exact ⟨px, _, .inr ⟨rfl, hbits⟩, hon⟩
      · rintro ⟨px, py, hcov | ⟨rfl, hbits⟩, hon⟩
        · exact .inl ⟨px, py, hcov, hon⟩
        · exact .inr ⟨px, hbits, hon⟩
    · refine changesOnly_trans hf fun p hp => ?_
      cases p with
      | pixel px py => exact absurd ⟨px, py, rfl⟩ hp
      | _ => rfl

end Sys2Proof.Machine
end

