-- ==== Sys2Proof/Laws/PerInstr.lean ====
section
/-! SUPPORT. Per-instruction laws. The family EncodesInItsRow: the word of an instruction has the fixed bits of its row of
the opcode map, `w & mask = match` (`spec/30_encoding.md` R56). -/

namespace Sys2Proof.Laws.EncodesInItsRow

/-- The encoder puts the instruction in its own row of the opcode map. -/
def Statement (i : Instr) : Prop := encodeWord i &&& (opcodeRow i).1 = (opcodeRow i).2

theorem cls : Statement .cls := rfl
theorem ret : Statement .ret := rfl
theorem jp (nnn : Addr12) : Statement (.jp nnn) := wordFNNN_mask ..
theorem call (nnn : Addr12) : Statement (.call nnn) := wordFNNN_mask ..
theorem seImm (x : Reg) (nn : Byte) : Statement (.seImm x nn) := wordFNNN_mask ..
theorem sneImm (x : Reg) (nn : Byte) : Statement (.sneImm x nn) := wordFNNN_mask ..
theorem seReg (x y : Reg) : Statement (.seReg x y) := wordFXYN_mask ..
theorem ldImm (x : Reg) (nn : Byte) : Statement (.ldImm x nn) := wordFNNN_mask ..
theorem addImm (x : Reg) (nn : Byte) : Statement (.addImm x nn) := wordFNNN_mask ..
theorem ldReg (x y : Reg) : Statement (.ldReg x y) := wordFXYN_mask ..
theorem or (x y : Reg) : Statement (.or x y) := wordFXYN_mask ..
theorem and (x y : Reg) : Statement (.and x y) := wordFXYN_mask ..
theorem xor (x y : Reg) : Statement (.xor x y) := wordFXYN_mask ..
theorem addReg (x y : Reg) : Statement (.addReg x y) := wordFXYN_mask ..
theorem sub (x y : Reg) : Statement (.sub x y) := wordFXYN_mask ..
theorem shr (x y : Reg) : Statement (.shr x y) := wordFXYN_mask ..
theorem subn (x y : Reg) : Statement (.subn x y) := wordFXYN_mask ..
theorem shl (x y : Reg) : Statement (.shl x y) := wordFXYN_mask ..
theorem sneReg (x y : Reg) : Statement (.sneReg x y) := wordFXYN_mask ..
theorem ldI (nnn : Addr12) : Statement (.ldI nnn) := wordFNNN_mask ..
theorem jpV0 (nnn : Addr12) : Statement (.jpV0 nnn) := wordFNNN_mask ..
theorem rnd (x : Reg) (nn : Byte) : Statement (.rnd x nn) := wordFNNN_mask ..
theorem drw (x y : Reg) (n : Nibble) : Statement (.drw x y n) := wordFNNN_mask ..
theorem skp (x : Reg) : Statement (.skp x) := wordFXNN_mask ..
theorem sknp (x : Reg) : Statement (.sknp x) := wordFXNN_mask ..
theorem ldVxDt (x : Reg) : Statement (.ldVxDt x) := wordFXNN_mask ..
theorem ldVxK (x : Reg) : Statement (.ldVxK x) := wordFXNN_mask ..
theorem ldDtVx (x : Reg) : Statement (.ldDtVx x) := wordFXNN_mask ..
theorem ldStVx (x : Reg) : Statement (.ldStVx x) := wordFXNN_mask ..
theorem addIVx (x : Reg) : Statement (.addIVx x) := wordFXNN_mask ..
theorem ldFVx (x : Reg) : Statement (.ldFVx x) := wordFXNN_mask ..
theorem ldBVx (x : Reg) : Statement (.ldBVx x) := wordFXNN_mask ..
theorem ldMemVx (x : Reg) : Statement (.ldMemVx x) := wordFXNN_mask ..
theorem ldVxMem (x : Reg) : Statement (.ldVxMem x) := wordFXNN_mask ..

end Sys2Proof.Laws.EncodesInItsRow
end

