-- ==== Sys2Proof/Laws/Step.lean ====
section
/-! SUPPORT. What a fetch and a step can do, said once (R42, R108, R116, R118, R120). -/

namespace Sys2Proof.Machine

/-- A fetch inside memory: the big-endian word at PC, and PC advanced by 2 (R42, R43). -/
theorem fetch_inside {s : State} (h : s.pc.toNat + 1 < memSize) :
    fetch s = .next (s.wordAt s.pc.toNat, { s with pc := s.pc + 2#16 }) := by
  rw [fetch, if_neg (not_le.2 h), memRead_inside s (by omega), andThen_next, memRead_inside s h, andThen_next]
  rfl

/-- A fetch outside memory raises, PC unchanged (R42, D2). -/
theorem fetch_outside {s : State} (h : memSize ≤ s.pc.toNat + 1) :
    fetch s = raise (.addressOutOfBounds
      (if memSize ≤ s.pc.toNat then s.pc.toNat else s.pc.toNat + 1) memSize) s := by
  rw [fetch, if_pos h]

theorem fetchInstr_faulted {s : State} {e : Error} (h : s.fault = some e) :
    fetchInstr s = .refused (.stepAfterFault e) := by simp [fetchInstr, h]

theorem fetchInstr_outside {s : State} (hf : s.fault = none) (h : memSize ≤ s.pc.toNat + 1) :
    fetchInstr s = raise (.addressOutOfBounds
      (if memSize ≤ s.pc.toNat then s.pc.toNat else s.pc.toNat + 1) memSize) s := by
  simp only [fetchInstr, hf, fetch_outside h, andThen_raise]

theorem fetchInstr_ok {s : State} {i : Instr} (hf : s.fault = none) (h : s.pc.toNat + 1 < memSize)
    (hd : decodeWord (s.wordAt s.pc.toNat) = .ok i) :
    fetchInstr s = .next (i, { s with pc := s.pc + 2#16 }) := by
  simp only [fetchInstr, hf, fetch_inside h, andThen_next, hd]

theorem fetchInstr_unassigned {s : State} {e : DecodeError} (hf : s.fault = none) (h : s.pc.toNat + 1 < memSize)
    (hd : decodeWord (s.wordAt s.pc.toNat) = .error e) :
    fetchInstr s = raise (.opcodeNotImplemented (s.wordAt s.pc.toNat)) { s with pc := s.pc + 2#16 } := by
  simp only [fetchInstr, hf, fetch_inside h, andThen_next, hd]

/-- Everything a step can do, by what stands before execution: refused after a fault, a fetch error, an unassigned word,
or the decoded instruction executed with PC advanced. -/
theorem step_cases (s : State) :
    (∃ e, s.fault = some e ∧ step s = .refused (.stepAfterFault e)) ∨
    (s.fault = none ∧ memSize ≤ s.pc.toNat + 1 ∧ step s = raise (.addressOutOfBounds
      (if memSize ≤ s.pc.toNat then s.pc.toNat else s.pc.toNat + 1) memSize) s) ∨
    (s.fault = none ∧ s.pc.toNat + 1 < memSize ∧ decodeWord? (s.wordAt s.pc.toNat) = none ∧
      step s = raise (.opcodeNotImplemented (s.wordAt s.pc.toNat)) { s with pc := s.pc + 2#16 }) ∨
    (∃ i, s.fault = none ∧ s.pc.toNat + 1 < memSize ∧ decodeWord (s.wordAt s.pc.toNat) = .ok i ∧
      step s = exec i { s with pc := s.pc + 2#16 }) := by
  rcases Option.eq_none_or_eq_some s.fault with hf | ⟨e, hf⟩
  · rcases Nat.lt_or_ge (s.pc.toNat + 1) memSize with h | h
    · rcases Option.eq_none_or_eq_some (decodeWord? (s.wordAt s.pc.toNat)) with hd | ⟨i, hd⟩
      · exact .inr (.inr (.inl ⟨hf, h, hd, by
          rw [step, fetchInstr_unassigned hf h (decodeWord_of_none hd)]; rfl⟩))
      · exact .inr (.inr (.inr ⟨i, hf, h, decodeWord_of_some hd, by
          rw [step, fetchInstr_ok hf h (decodeWord_of_some hd)]; rfl⟩))
    · exact .inr (.inl ⟨hf, h, by rw [step, fetchInstr_outside hf h]; rfl⟩)
  · exact .inl ⟨e, hf, by rw [step, fetchInstr_faulted hf]; rfl⟩

/-- A step of an unfaulted machine with a decodable word at PC executes that instruction. -/
theorem step_ok {s : State} {i : Instr} (hf : s.fault = none) (h : s.pc.toNat + 1 < memSize)
    (hd : decodeWord (s.wordAt s.pc.toNat) = .ok i) : step s = exec i { s with pc := s.pc + 2#16 } := by
  rw [step, fetchInstr_ok hf h hd]; rfl

/-- A step that answers executed an instruction of an unfaulted machine. -/
theorem step_eq_next {s t : State} (h : step s = .next t) :
    ∃ i, s.fault = none ∧ s.pc.toNat + 1 < memSize ∧ decodeWord (s.wordAt s.pc.toNat) = .ok i ∧
      exec i { s with pc := s.pc + 2#16 } = .next t := by
  rcases step_cases s with ⟨_, _, h'⟩ | ⟨_, _, h'⟩ | ⟨_, _, _, h'⟩ | ⟨i, hf, hp, hd, h'⟩
  · rw [h'] at h; cases h
  · exact absurd (h'.symm.trans h) (raise_ne_next _ _ _)
  · exact absurd (h'.symm.trans h) (raise_ne_next _ _ _)
  · exact ⟨i, hf, hp, hd, h'.symm.trans h⟩

/-- The key test of Ex9E and ExA1 on a key that exists. -/
theorem withKey_inside {x : Reg} {s : State} (f : Bool → Result State) (h : (s.getV x).toNat < 16) :
    withKey x s f = f (s.key ⟨(s.getV x).toNat, h⟩) := by simp [withKey, h]

/-- The key test of Ex9E and ExA1 on an index above 15. -/
theorem withKey_outside {x : Reg} {s : State} (f : Bool → Result State) (h : 16 ≤ (s.getV x).toNat) :
    withKey x s f = raise (.unspecified .keyIndexOutOfRange) s := by simp [withKey, h]

/-- Steps compose: the first `m`, then the rest. -/
theorem runSteps_add (m n : Nat) (s : State) : runSteps (m + n) s = andThen (runSteps m s) (runSteps n) := by
  induction m generalizing s with
  | zero => simp [runSteps]
  | succ m ih =>
    rw [Nat.succ_add, runSteps, runSteps, andThen_assoc]
    exact congrArg _ (funext fun t => ih t)

/-- Calls one after another: the first ones, then the rest. -/
theorem runCalls_append (first rest : List HostCall) (s : State) :
    runCalls (first ++ rest) s = andThen (runCalls first s) (runCalls rest) := by
  induction first generalizing s with
  | nil => rfl
  | cons c calls ih =>
    rw [List.cons_append, runCalls, runCalls, andThen_assoc]
    exact congrArg _ (funext fun t => ih t)

/-- A call that goes on with a run reaches a state of that run (R132). -/
theorem reachedFrom_hostCall {c : HostCall} {start s t : State} (hc : c.continuesRun = true) (hs : s.reachedFrom start)
    (h : hostCall c s = .next t) : t.reachedFrom start := by
  obtain ⟨calls, hall, hrun⟩ := hs
  refine ⟨calls ++ [c], by simp [hall, hc], ?_⟩
  rw [runCalls_append, hrun, andThen_next, runCalls, h]
  rfl

/-- A run reaches its own start. -/
theorem reachedFrom_self (s : State) : s.reachedFrom s := ⟨[], rfl, rfl⟩

/-- A tick of an unfaulted machine whose steps all go on (R109). -/
theorem tick_next {s t : State} (hf : s.fault = none) (h : runSteps s.config.stepsPerTick s = .next t) :
    tick s = .next (decrementTimers t) := by
  simp only [tick, hf, h, andThen_next]

/-- The timer decrement as a number (R110). -/
theorem decrementTimer_toNat (b : Byte) : (decrementTimer b).toNat = b.toNat - 1 := by
  revert b; decide +kernel

/-- What every step keeps, running steps keeps, whether they go on or stop. -/
theorem leaves_runSteps {P : State → Prop} (hP : ∀ s, P s → leaves P (step s)) (count : Nat) (s : State) (hs : P s) :
    leaves P (runSteps count s) := by
  induction count generalizing s with
  | zero => exact hs
  | succ n ih =>
    have h := hP s hs
    rw [runSteps]
    cases hst : step s with
    | next t => rw [hst] at h; exact ih t h
    | fault f => rw [hst] at h; cases f; exact h
    | refused r => trivial

end Sys2Proof.Machine
end

