-- ==== Sys2Proof/Tests/Slice0.lean ====
section
/-! SUPPORT. Named tests, each against the spec's own words: decoding from `spec/30_encoding.md` R56 and the vectors V-X of
`spec/95_test_vectors.md`, single steps from its examples E and vectors V, and one witness for each hypothesis of an
obligation. -/

namespace Sys2Proof.Tests

open Sys2Proof Sys2Proof.Machine

-- One thread a pending kernel check is more than the checks' memory limit gives a file of this many tests.
set_option Elab.async false

/-! ## Helpers: one step on a small state -/

/-- The start state of the vectors: reset, with the word at PC. -/
def start (w : Word) : State := storeFetchWord State.reset w

/-- What a step's next state shows. -/
def shows {α : Type} (s : State) (f : State → α) : Option α :=
  match step s with
  | .next t => some (f t)
  | _ => none

/-- The error a step stops with, and what the state left shows. -/
def stops {α : Type} (s : State) (f : State → α) : Option (Error × α) :=
  match step s with
  | .fault (.raised e t) => some (e, f t)
  | _ => none

/-- A stack of `n` entries, each the address a call at 0x200 pushes. -/
def deep (n : Nat) : List Word := List.replicate n 0x202#16

/-- The keypad with exactly the named keys pressed. -/
def pressing (ks : List Nat) : Keypad := Vector.ofFn fun k => ks.contains k.val

/-! ## Well-formedness: each check refuses an ill-formed term -/

theorem test_wf_register_field : fieldFits 4 15 = true ∧ fieldFits 4 16 = false := by decide
theorem test_wf_immediate_field : fieldFits 8 255 = true ∧ fieldFits 8 256 = false := by decide
theorem test_wf_address_field : fieldFits 12 4095 = true ∧ fieldFits 12 4096 = false := by decide
theorem test_wf_font : fontFits 4016 = true ∧ fontFits 4017 = false := by decide
theorem test_wf_program : blockFits 0x200 3584 = true ∧ blockFits 0x200 3585 = false ∧ blockFits 0xFFFF 0 = true := by
  decide
theorem test_wf_construct_refused :
    construct 0x200#16 4017 10 standardFont .flagLast = .refused (.fontDoesNotFit 4017) := rfl
theorem test_wf_load_refused : loadProgram [0x12#8, 0x00#8] { State.reset with config.programBase := 0xFFF#16 } =
    .refused (.programDoesNotFit 0xFFF 2) := rfl
theorem test_wf_stack_too_deep : ¬ State.wf { State.reset with stack := deep 16 } := by decide
theorem test_wf_memory_not_rising : ¬ Memory.wf {} [(0x301, 1#8), (0x300, 1#8)] := by decide
theorem test_wf_memory_lists_unlisted_value : ¬ Memory.wf {} [(0x300, 0#8)] ∧ ¬ Memory.wf {} [(0x050, 0xF0#8)] := by
  decide +kernel
theorem test_wf_memory_outside : ¬ Memory.wf {} [(4096, 1#8)] := by decide

/-! ## Decoding: a word written out from each row of R56 -/

theorem test_decode_control :
    decodeWord 0x00E0#16 = .ok .cls ∧ decodeWord 0x00EE#16 = .ok .ret ∧ decodeWord 0x1234#16 = .ok (.jp 0x234#12) ∧
    decodeWord 0x2ABC#16 = .ok (.call 0xABC#12) ∧ decodeWord 0xB30F#16 = .ok (.jpV0 0x30F#12) := by decide
theorem test_decode_skips :
    decodeWord 0x3A42#16 = .ok (.seImm 10 0x42#8) ∧ decodeWord 0x4B24#16 = .ok (.sneImm 11 0x24#8) ∧
    decodeWord 0x5120#16 = .ok (.seReg 1 2) ∧ decodeWord 0x9340#16 = .ok (.sneReg 3 4) := by decide
theorem test_decode_loads :
    decodeWord 0x62F1#16 = .ok (.ldImm 2 0xF1#8) ∧ decodeWord 0x7105#16 = .ok (.addImm 1 0x05#8) ∧
    decodeWord 0xC10F#16 = .ok (.rnd 1 0x0F#8) ∧ decodeWord 0xA123#16 = .ok (.ldI 0x123#12) := by decide
theorem test_decode_alu :
    decodeWord 0x8120#16 = .ok (.ldReg 1 2) ∧ decodeWord 0x8341#16 = .ok (.or 3 4) ∧
    decodeWord 0x8562#16 = .ok (.and 5 6) ∧ decodeWord 0x8783#16 = .ok (.xor 7 8) ∧
    decodeWord 0x89A4#16 = .ok (.addReg 9 10) := by decide
theorem test_decode_alu_flags :
    decodeWord 0x8BC5#16 = .ok (.sub 11 12) ∧ decodeWord 0x8DE6#16 = .ok (.shr 13 14) ∧
    decodeWord 0x8F07#16 = .ok (.subn 15 0) ∧ decodeWord 0x812E#16 = .ok (.shl 1 2) := by decide
theorem test_decode_draw_and_keys :
    decodeWord 0xD12F#16 = .ok (.drw 1 2 0xF#4) ∧ decodeWord 0xE59E#16 = .ok (.skp 5) ∧
    decodeWord 0xE6A1#16 = .ok (.sknp 6) := by decide
theorem test_decode_timers :
    decodeWord 0xF107#16 = .ok (.ldVxDt 1) ∧ decodeWord 0xF20A#16 = .ok (.ldVxK 2) ∧
    decodeWord 0xF315#16 = .ok (.ldDtVx 3) ∧ decodeWord 0xF418#16 = .ok (.ldStVx 4) := by decide
theorem test_decode_index :
    decodeWord 0xF51E#16 = .ok (.addIVx 5) ∧ decodeWord 0xF629#16 = .ok (.ldFVx 6) ∧
    decodeWord 0xF733#16 = .ok (.ldBVx 7) ∧ decodeWord 0xF855#16 = .ok (.ldMemVx 8) ∧
    decodeWord 0xF965#16 = .ok (.ldVxMem 9) := by decide

/-- V-X1 to V-X9: words that name no instruction. -/
theorem test_decode_unassigned :
    ([0x0000#16, 0x00E1#16, 0x0123#16, 0x00FF#16, 0x00C1#16, 0x5121#16, 0x800F#16, 0x8128#16] ++
      [0x812D#16, 0x9121#16, 0xE19F#16, 0xE0A2#16, 0xF0FF#16, 0xF130#16, 0xF075#16, 0xF000#16]).all
      (fun w => decide (decodeWord w = .error (.opcodeNotImplemented w))) = true := by decide +kernel

/-- R43: the byte at the lower address is the high one; R61: two bytes, the rest handed back. -/
theorem test_decode_bytes :
    decode [0x12#8, 0x34#8, 0x56#8] = .ok (.jp 0x234#12, [0x56#8]) ∧ decode [0x12#8] = .error .tooShort := by decide

theorem test_encode_words :
    encode (.drw 1 2 0xF#4) = [0xD1#8, 0x2F#8] ∧ encode (.ldVxMem 9) = [0xF9#8, 0x65#8] ∧
    encode (.call 0xABC#12) = [0x2A#8, 0xBC#8] := by decide

theorem test_decodeTableWord :
    decodeTableWord 16 0x8126 = some (.shr 1 2) ∧ decodeTableWord 16 0x18126 = some (.shr 1 2) ∧
    decodeTableWord 16 0x0000 = none := by decide

/-! ## Fetch and step -/

/-- E1. -/
theorem test_fetch_big_endian : shows (start 0x1234#16) (·.pc) = some 0x234#16 := by decide +kernel
/-- V-F1. -/
theorem test_fetch_last_word :
    shows (storeFetchWord { State.reset with pc := 0xFFE#16 } 0x6677#16) (fun t => (t.getV 6, t.pc)) =
      some (0x77#8, 0x1000#16) := by decide +kernel
/-- V-F2, V-F3. -/
theorem test_fetch_outside :
    stops { State.reset with pc := 0xFFF#16 } (·.pc) = some (.addressOutOfBounds 0x1000 4096, 0xFFF#16) ∧
    stops { State.reset with pc := 0x1000#16 } (·.pc) = some (.addressOutOfBounds 0x1000 4096, 0x1000#16) := by
  decide +kernel
/-- V-F4. -/
theorem test_fetch_odd :
    shows (storeFetchWord { State.reset with pc := 0x201#16 } 0x6677#16) (fun t => (t.getV 6, t.pc)) =
      some (0x77#8, 0x203#16) := by decide +kernel
/-- V-X1, and the first step of a machine with no program (log 16). -/
theorem test_step_unassigned :
    stops State.reset (fun t => (t.pc, t.fault)) =
      some (.opcodeNotImplemented 0#16, 0x202#16, some (.opcodeNotImplemented 0#16)) := by decide +kernel
/-- R120: no step after a fault. -/
theorem test_step_after_fault :
    step { State.reset with fault := some .stackUnderflow } = .refused (.stepAfterFault .stackUnderflow) := rfl
theorem test_withFetchWord :
    shows (State.reset.withFetchWord 16 0xA123) (·.i) = some 0x123#16 := by decide +kernel

/-! ## Control flow -/

/-- V-C1. -/
theorem test_ret : shows { start 0x00EE#16 with stack := [0x20A#16] } (fun t => (t.pc, t.stack)) =
    some (0x20A#16, []) := by decide +kernel
/-- V-C2. -/
theorem test_ret_empty : stops (start 0x00EE#16) (·.pc) = some (.stackUnderflow, 0x202#16) := by decide +kernel
/-- V-C5. -/
theorem test_jp : shows (start 0x1FFE#16) (·.pc) = some 0xFFE#16 := by decide +kernel
/-- V-C7. -/
theorem test_call : shows { start 0x2ABC#16 with stack := deep 14 } (fun t => (t.pc, t.stack.length, t.stack.getLast?)) =
    some (0xABC#16, 15, some 0x202#16) := by decide +kernel
/-- V-C8. -/
theorem test_call_full : stops { start 0x2ABC#16 with stack := deep 15 } (fun t => (t.pc, t.stack.length)) =
    some (.stackOverflow, 0x202#16, 15) := by decide +kernel
/-- V-C9, V-C10. -/
theorem test_se_imm : shows ((start 0x3A42#16).setV 10 0x42#8) (·.pc) = some 0x204#16 ∧
    shows ((start 0x3A42#16).setV 10 0x41#8) (·.pc) = some 0x202#16 := by decide +kernel
/-- V-C11, V-C12. -/
theorem test_sne_imm : shows ((start 0x4A42#16).setV 10 0x42#8) (·.pc) = some 0x202#16 ∧
    shows ((start 0x4A42#16).setV 10 0x41#8) (·.pc) = some 0x204#16 := by decide +kernel
/-- V-C14, V-C15. -/
theorem test_se_reg : shows (((start 0x5120#16).setV 1 7#8).setV 2 8#8) (·.pc) = some 0x202#16 ∧
    shows ((start 0x5110#16).setV 1 9#8) (·.pc) = some 0x204#16 := by decide +kernel
/-- V-C16, V-C17. -/
theorem test_sne_reg : shows (((start 0x9120#16).setV 1 7#8).setV 2 7#8) (·.pc) = some 0x202#16 ∧
    shows (((start 0x9120#16).setV 1 7#8).setV 2 8#8) (·.pc) = some 0x204#16 := by decide +kernel
/-- V-C19, V-C20. -/
theorem test_jp_v0 : shows ((start 0xB123#16).setV 1 0x55#8) (·.pc) = some 0x123#16 ∧
    shows ((start 0xBFFF#16).setV 0 0xFF#8) (·.pc) = some 0x10FE#16 := by decide +kernel

/-! ## Loads, arithmetic, logic, shifts, random -/

/-- E5. -/
theorem test_ld_imm : shows (start 0x62F1#16) (fun t => (t.getV 2, t.pc)) = some (0xF1#8, 0x202#16) := by decide +kernel
/-- V-A2, V-A3. -/
theorem test_add_imm :
    shows (((start 0x7105#16).setV 1 0xFE#8).setV 15 0x77#8) (fun t => (t.getV 1, t.getV 15)) = some (0x03#8, 0x77#8) ∧
    shows ((start 0x7F01#16).setV 15 0xFF#8) (·.getV 15) = some 0#8 := by decide +kernel
/-- V-A4. -/
theorem test_ld_reg : shows ((start 0x8120#16).setV 2 0x3C#8) (·.getV 1) = some 0x3C#8 := by decide +kernel
/-- V-A5. -/
theorem test_or : shows ((((start 0x8121#16).setV 1 0x0F#8).setV 2 0xF0#8).setV 15 0x77#8)
    (fun t => (t.getV 1, t.getV 15)) = some (0xFF#8, 0x77#8) := by decide +kernel
/-- V-A6. -/
theorem test_and : shows ((((start 0x8122#16).setV 1 0x3C#8).setV 2 0x0F#8).setV 15 0x77#8)
    (fun t => (t.getV 1, t.getV 15)) = some (0x0C#8, 0x77#8) := by decide +kernel
/-- V-A7. -/
theorem test_xor : shows ((((start 0x8123#16).setV 1 0xFF#8).setV 2 0x0F#8).setV 15 0x77#8)
    (fun t => (t.getV 1, t.getV 15)) = some (0xF0#8, 0x77#8) := by decide +kernel
/-- V-A9, V-A10. -/
theorem test_add_reg :
    shows (((start 0x8124#16).setV 1 0x80#8).setV 2 0x80#8) (fun t => (t.getV 1, t.getV 15)) = some (0#8, 1#8) ∧
    shows (((start 0x8124#16).setV 1 0x7F#8).setV 2 0x80#8) (fun t => (t.getV 1, t.getV 15)) = some (0xFF#8, 0#8) := by
  decide +kernel
/-- V-A11, V-A12: VF as destination and as operand. -/
theorem test_add_reg_vf :
    shows (((start 0x8F14#16).setV 15 0x10#8).setV 1 0xF5#8) (·.getV 15) = some 1#8 ∧
    shows (((start 0x81F4#16).setV 1 0x01#8).setV 15 0xFF#8) (fun t => (t.getV 1, t.getV 15)) = some (0#8, 1#8) := by
  decide +kernel
/-- V-A14, V-A15. -/
theorem test_sub :
    shows (((start 0x8125#16).setV 1 5#8).setV 2 5#8) (fun t => (t.getV 1, t.getV 15)) = some (0#8, 1#8) ∧
    shows ((start 0x8125#16).setV 2 1#8) (fun t => (t.getV 1, t.getV 15)) = some (0xFF#8, 0#8) := by decide +kernel
/-- V-A17, and the same under the alternative `result_last` of R74. -/
theorem test_sub_vf :
    shows (((start 0x8F15#16).setV 15 0x10#8).setV 1 0x20#8) (·.getV 15) = some 0#8 ∧
    shows { ((start 0x8F15#16).setV 15 0x10#8).setV 1 0x20#8 with config.flagWriteOrder := .resultLast } (·.getV 15) =
      some 0xF0#8 := by decide +kernel
/-- V-A18, V-A20. -/
theorem test_shr :
    shows ((start 0x8106#16).setV 1 0x01#8) (fun t => (t.getV 1, t.getV 15)) = some (0#8, 1#8) ∧
    shows (((start 0x8126#16).setV 1 0x04#8).setV 2 0xFF#8) (fun t => (t.getV 1, t.getV 2, t.getV 15)) =
      some (0x02#8, 0xFF#8, 0#8) := by decide +kernel
/-- V-A22, V-A23. -/
theorem test_subn :
    shows (((start 0x8127#16).setV 1 2#8).setV 2 5#8) (fun t => (t.getV 1, t.getV 15)) = some (3#8, 1#8) ∧
    shows (((start 0x8127#16).setV 1 5#8).setV 2 2#8) (fun t => (t.getV 1, t.getV 15)) = some (0xFD#8, 0#8) := by
  decide +kernel
/-- V-A25, V-A26. -/
theorem test_shl :
    shows ((start 0x810E#16).setV 1 0x80#8) (fun t => (t.getV 1, t.getV 15)) = some (0#8, 1#8) ∧
    shows ((start 0x810E#16).setV 1 0x7F#8) (fun t => (t.getV 1, t.getV 15)) = some (0xFE#8, 0#8) := by decide +kernel
/-- V-A29: any draw under the mask 0x00 is 0. -/
theorem test_rnd (s : State) : ∃ t, exec (.rnd 1 0#8) s = .next t ∧ t.getV 1 = 0#8 :=
  ⟨_, rfl, by rw [State.getV_setV_same]; exact BitVec.and_zero⟩

/-! ## Index register and memory transfer -/

/-- V-M1. -/
theorem test_ld_i : shows (start 0xA123#16) (·.i) = some 0x123#16 := by decide +kernel
/-- V-M3, V-M4. -/
theorem test_add_i :
    shows ({ start 0xF31E#16 with i := 0xFFF0#16 }.setV 3 0x0F#8) (·.i) = some 0xFFFF#16 ∧
    stops ({ start 0xF31E#16 with i := 0xFFFF#16 }.setV 3 1#8) (fun t => (t.i, t.pc)) =
      some (.unspecified .indexOverflow, 0xFFFF#16, 0x202#16) := by decide +kernel
/-- V-M7, V-M9. -/
theorem test_ld_f : shows ((start 0xF029#16).setV 0 0x0A#8) (·.i) = some 0x082#16 ∧
    shows ((start 0xF029#16).setV 0 0xFF#8) (·.i) = some 0x54B#16 := by decide +kernel
/-- E5: "memory[2..5]" is half-open. -/
theorem test_ld_b :
    shows ({ start 0xF033#16 with i := 2#16 }.setV 0 123#8) (fun t => (t.byteAt 2, t.byteAt 3, t.byteAt 4, t.byteAt 5)) =
      some (1#8, 2#8, 3#8, 0#8) := by decide +kernel
/-- V-M13. -/
theorem test_ld_b_outside :
    stops ({ start 0xF033#16 with i := 0xFFE#16 }.setV 0 123#8) (fun t => (t.byteAt 0xFFE, t.byteAt 0xFFF)) =
      some (.addressOutOfBounds 0x1000 4096, 1#8, 2#8) := by decide +kernel
/-- V-M14. -/
theorem test_ld_mem_vx :
    shows (({ start 0xF055#16 with i := 0x300#16 }.setV 0 0xAA#8).setV 1 0xBB#8)
      (fun t => (t.byteAt 0x300, t.byteAt 0x301, t.i)) = some (0xAA#8, 0#8, 0x300#16) := by decide +kernel
/-- V-M16. -/
theorem test_ld_mem_vx_outside :
    stops (({ start 0xF355#16 with i := 0xFFE#16 }.setV 0 1#8).setV 1 2#8) (fun t => (t.byteAt 0xFFE, t.byteAt 0xFFF)) =
      some (.addressOutOfBounds 0x1000 4096, 1#8, 2#8) := by decide +kernel
/-- V-M18, its last register. -/
theorem test_ld_vx_mem :
    shows ({ start 0xFF65#16 with i := 0x300#16 }.setByte 0x30F 0xAF#8) (fun t => (t.getV 15, t.i)) =
      some (0xAF#8, 0x300#16) := by decide +kernel
/-- V-M19. -/
theorem test_ld_vx_mem_outside :
    stops (({ start 0xF265#16 with i := 0xFFF#16 }.setByte 0xFFF 0x5C#8).setV 1 0x11#8)
      (fun t => (t.getV 0, t.getV 1)) = some (.addressOutOfBounds 0x1000 4096, 0x5C#8, 0x11#8) := by decide +kernel

/-! ## Display -/

/-- V-D1. -/
theorem test_cls :
    shows ({ start 0x00E0#16 with fb := Framebuffer.set Framebuffer.clear 63 31 }.setV 15 0x55#8)
      (fun t => (t.pixel 63 31, t.getV 15)) = some (false, 0x55#8) := by decide +kernel
/-- V-D7: a row wraps; V-D6: VF is an origin and the destination. -/
theorem test_drw_wraps :
    shows ((({ start 0xD011#16 with i := 0x300#16 }.setByte 0x300 0xFF#8).setV 0 63#8).setV 1 31#8)
      (fun t => (t.pixel 63 31, t.pixel 0 31, t.pixel 6 31, t.pixel 7 31, t.getV 15)) =
      some (true, true, true, false, 0#8) ∧
    shows (({ start 0xDF01#16 with i := 0x300#16 }.setByte 0x300 0x80#8).setV 15 3#8)
      (fun t => (t.pixel 3 0, t.getV 15)) = some (true, 0#8) := by decide +kernel
/-- V-D8: a collision; V-D10: the row inside memory stands. -/
theorem test_drw_collides :
    shows ((({ start 0xD011#16 with i := 0x300#16, fb := Framebuffer.set Framebuffer.clear 4 4 }.setByte
        0x300 0xC0#8).setV 0 3#8).setV 1 4#8)
      (fun t => (t.pixel 3 4, t.pixel 4 4, t.getV 15)) = some (true, false, 1#8) ∧
    stops (((({ start 0xD012#16 with i := 0xFFF#16 }.setByte 0xFFF 0x80#8).setV 0 10#8).setV 1 20#8).setV 15 9#8)
      (fun t => (t.pixel 10 20, t.getV 15)) = some (.addressOutOfBounds 0x1000 4096, true, 9#8) := by decide +kernel

/-! ## Keypad and timers -/

/-- V-K1, V-K5. -/
theorem test_skp :
    shows ({ start 0xE19E#16 with keys := pressing [5] }.setV 1 5#8) (·.pc) = some 0x204#16 ∧
    stops ((start 0xE19E#16).setV 1 0x10#8) (·.pc) = some (.unspecified .keyIndexOutOfRange, 0x202#16) := by
  decide +kernel
/-- V-K3, V-K4. -/
theorem test_sknp :
    shows ({ start 0xE1A1#16 with keys := pressing [5] }.setV 1 5#8) (·.pc) = some 0x202#16 ∧
    shows ((start 0xE1A1#16).setV 1 5#8) (·.pc) = some 0x204#16 := by decide +kernel
/-- V-K7. -/
theorem test_ld_vx_k_waits :
    shows ((start 0xF30A#16).setV 3 9#8) (fun t => (t.pc, t.getV 3, t.draws)) = some (0x200#16, 9#8, 0) := by
  decide +kernel
/-- E10: with key 7 alone pressed there is one choice. -/
theorem test_ld_vx_k_one_key : ∃ t, exec (.ldVxK 3) { State.reset with keys := pressing [7] } = .next t ∧
    t.getV 3 = 7#8 := by
  have hp : State.pressedKeys { State.reset with keys := pressing [7] } = [7] := by decide +kernel
  refine ⟨_, by rw [exec, execLdVxK, hp], ?_⟩
  rw [State.getV_setV_same]
  simp [drawKeyChoice, Nat.mod_one]
/-- V-K9. -/
theorem test_ld_vx_dt : shows { start 0xF507#16 with dt := 0x3C#8 } (·.getV 5) = some 0x3C#8 := by decide +kernel
/-- V-K10. -/
theorem test_ld_dt_vx : shows ((start 0xF215#16).setV 2 10#8) (·.dt) = some 10#8 := by decide +kernel
/-- V-K11, V-K12. -/
theorem test_ld_st_vx :
    shows ((start 0xF218#16).setV 2 4#8) (fun t => (t.st, soundOn t)) = some (4#8, true) ∧
    shows { start 0xF018#16 with st := 9#8 } (fun t => (t.st, soundOn t)) = some (0#8, false) := by decide +kernel

/-! ## Ticks, reset, loading -/

/-- V-T1. -/
theorem test_tick_of_no_steps :
    tick { State.reset with config.stepsPerTick := 0, dt := 1#8, st := 2#8 } =
      .next { State.reset with config.stepsPerTick := 0, dt := 0#8, st := 1#8 } := rfl
/-- A reset of the reset machine is the reset machine (R136). -/
theorem test_reset_again : hostReset State.reset = State.reset := by decide +kernel
/-- E8, one byte of the program, one of the font, one of neither. -/
theorem test_reset_replays :
    let s := hostReset { start 0x6007#16 with programImage := [0xA3#8, 0x00#8], keys := pressing [4] }
    (s.byteAt 0x200, s.byteAt 0x201, s.byteAt 0x050, s.byteAt 0x300, s.pc, s.key 4) =
      (0xA3#8, 0x00#8, 0xF0#8, 0#8, 0x200#16, true) := by decide +kernel
/-- E3. -/
theorem test_bcd : decimalDigits 123#8 = (1#8, 2#8, 3#8) ∧ decimalDigits 0x97#8 = (1#8, 5#8, 1#8) ∧
    decimalDigits 0#8 = (0#8, 0#8, 0#8) ∧ decimalDigits 255#8 = (2#8, 5#8, 5#8) := by decide
/-- E3, by the algorithm the source names. -/
theorem test_double_dabble : doubleDabble 255#8 = (2#8, 5#8, 5#8) := by decide

/-! ## Witnesses: states that meet the obligations' hypotheses, each clause at a boundary -/

theorem witness_EncodeDecodeRoundTrip : decodeWord 0x8126#16 = .ok (.shr 1 2) := by decide
theorem witness_WordNamesInstructionIffOneRowMatches :
    (∃ row ∈ opcodeTable, matchesRow 0x00E0#16 row = true) ∧
    (∀ row ∈ opcodeTable, matchesRow 0x5121#16 row = false) := by
  have h : opcodeTable.all (fun row => !matchesRow 0x5121#16 row) = true := by decide +kernel
  exact ⟨⟨_, List.mem_cons_self, rfl⟩, by simpa using h⟩
/-- For every row that some instruction statement names: a word with its fixed bits. -/
theorem witness_rowDecodes :
    0x1FFF#16 &&& 0xF000#16 = 0x1000#16 ∧ 0x5AB0#16 &&& 0xF00F#16 = 0x5000#16 ∧ 0xFA55#16 &&& 0xF0FF#16 = 0xF055#16 := by
  decide
theorem witness_FetchReadsBigEndian : ({ State.reset with pc := 0xFFE#16 } : State).pc.toNat + 1 < memSize := by decide
theorem witness_FetchOutsideMemoryRaises :
    memSize ≤ ({ State.reset with pc := 0xFFF#16 } : State).pc.toNat + 1 ∧
    memSize ≤ ({ State.reset with pc := 0xFFFF#16 } : State).pc.toNat := by decide
theorem witness_StepRunsDecodedInstruction :
    (∃ r, fetch { State.reset with pc := 0xFFF#16 } = .fault r) ∧
    (start 0x6677#16).fault = none ∧ (start 0x6677#16).pc.toNat + 1 < memSize ∧
    decode [(start 0x6677#16).byteAt 0x200, (start 0x6677#16).byteAt 0x201] = .ok (.ldImm 6 0x77#8, []) ∧
    (Instr.ldImm 6 0x77#8).wf = true ∧
    decode [State.reset.byteAt 0x200, State.reset.byteAt 0x201] = .error (.opcodeNotImplemented 0#16) :=
  ⟨⟨_, rfl⟩, by decide +kernel⟩
theorem witness_UnassignedWordRaises :
    State.reset.fault = none ∧ State.reset.pc.toNat + 1 < memSize ∧
    ∀ i, decodeWord (State.reset.wordAt State.reset.pc.toNat) ≠ .ok i := by
  refine ⟨rfl, by decide, fun i h => ?_⟩
  have hd : decodeWord (State.reset.wordAt State.reset.pc.toNat) = .error (.opcodeNotImplemented 0#16) := by
    decide +kernel
  rw [hd] at h; cases h
theorem witness_FaultStatusIsSticky :
    (∃ e, ({ State.reset with fault := some .stackOverflow } : State).fault = some e) ∧
    (∃ t, step (start 0x1234#16) = .next t) ∧ (∃ t, tick { State.reset with config.stepsPerTick := 0 } = .next t) ∧
    (∃ e t, step State.reset = .fault (.raised e t)) ∧ (∃ e t, tick State.reset = .fault (.raised e t)) :=
  ⟨⟨_, rfl⟩, ⟨_, rfl⟩, ⟨_, rfl⟩, ⟨_, _, rfl⟩, ⟨_, _, rfl⟩⟩
theorem witness_FetchSeesEarlierStores :
    ∃ t u, memWrite 0xFFE 0x12#8 { State.reset with pc := 0xFFE#16 } = .next t ∧ memWrite 0xFFF 0x34#8 t = .next u :=
  ⟨_, _, rfl, rfl⟩
theorem witness_MemoryAccessesCheckBound : 4095 < memSize ∧ memSize ≤ 4096 := by decide
theorem witness_EqualReadsMeanEqualMemory : Memory.wf {} [(0x050, 0#8), (0xFFF, 1#8)] := by decide +kernel
theorem witness_StackIsLastInFirstOut :
    (deep 14).length < 15 ∧ 15 ≤ (deep 15).length ∧ deep 1 ≠ [] ∧ deep 0 = [] := by decide
theorem witness_BlockLoadChecksFinalAddress :
    4095 + [1#8].length ≤ memSize ∧ [1#8, 2#8] ≠ [] ∧ memSize < 4095 + [1#8, 2#8].length := by decide
theorem witness_JumpSetsCounter : (0xFFF#12).toNat = 0xFFF := by decide
theorem witness_JumpOffsetAddsRegisterZero :
    4095 ≤ (0xF00#12).toNat + ((State.reset.setV 0 0xFF#8).getV 0).toNat := by decide
theorem witness_CallPushesReturnAddress :
    ({ State.reset with stack := deep 14 } : State).stack.length < 15 ∧
    15 ≤ ({ State.reset with stack := deep 15 } : State).stack.length := by decide
theorem witness_ReturnPopsCounter :
    ({ State.reset with stack := [0x20A#16] } : State).stack = [] ++ [0x20A#16] ∧ State.reset.stack = [] := by decide
theorem witness_IndexAddOrOverflow :
    ({ State.reset with i := 0xFFFF#16 } : State).i.toNat + (State.reset.getV 0).toNat ≤ 0xFFFF ∧
    0xFFFF < (0xFFFF#16).toNat + ((State.reset.setV 0 1#8).getV 0).toNat := by decide
theorem witness_DecimalDigitsStored :
    ({ State.reset with i := 0xFFD#16 } : State).dataAddress 2 < memSize ∧
    memSize ≤ ({ State.reset with i := 0x1000#16 } : State).dataAddress 0 ∧
    ({ State.reset with i := 0xFFF#16 } : State).dataAddress 0 < memSize ∧
    memSize ≤ ({ State.reset with i := 0xFFF#16 } : State).dataAddress 1 ∧
    ({ State.reset with i := 0xFFE#16 } : State).dataAddress 1 < memSize ∧
    memSize ≤ ({ State.reset with i := 0xFFE#16 } : State).dataAddress 2 := by decide
/-- For the stores and for the loads: the last block that fits, a block cut after one byte, one wholly outside. -/
theorem witness_RegistersStored_RegistersLoaded :
    ({ State.reset with i := 0xFF0#16 } : State).dataAddress (15 : Reg).val < memSize ∧
    memSize ≤ ({ State.reset with i := 0xFFF#16 } : State).dataAddress (2 : Reg).val ∧
    bytesInside { State.reset with i := 0xFFF#16 } = 1 ∧
    memSize ≤ ({ State.reset with i := 0x1000#16 } : State).dataAddress (0 : Reg).val ∧
    bytesInside { State.reset with i := 0x1000#16 } = 0 := by decide
/-- A draw of no rows, and the longest draw that ends at the last byte. -/
theorem witness_DrawXorsWrappedSprite :
    (∀ r, r < (0#4).toNat → ({ State.reset with i := 0xFFFF#16 } : State).dataAddress r < memSize) ∧
    (∀ r, r < (15#4).toNat → ({ State.reset with i := 0xFF1#16 } : State).dataAddress r < memSize) := by decide
/-- A covered pixel that is on, and a sprite that covers none. -/
theorem witness_DrawXorsWrappedSprite_collision :
    (∃ px py, spriteCovers { State.reset with i := 0x050#16, fb := Framebuffer.set Framebuffer.clear 0 0 } 0 1 1 px py ∧
      ({ State.reset with fb := Framebuffer.set Framebuffer.clear 0 0 } : State).pixel px py = true) ∧
    ¬ ∃ px py, spriteCovers { State.reset with i := 0x300#16 } 0 1 0 px py ∧ State.reset.pixel px py = true :=
  ⟨⟨0, 0, ⟨0, 0, by decide, by decide, by decide +kernel, by decide, by decide⟩, by decide +kernel⟩,
    fun ⟨_, _, ⟨_, _, h, _⟩, _⟩ => absurd h (by omega)⟩
theorem witness_DrawOutsideMemoryKeepsEarlierRows :
    memSize ≤ ({ State.reset with i := 0x1000#16 } : State).dataAddress 0 ∧ 1 < (2#4).toNat ∧
    (∀ q, q < 1 → ({ State.reset with i := 0xFFF#16 } : State).dataAddress q < memSize) ∧
    memSize ≤ ({ State.reset with i := 0xFFF#16 } : State).dataAddress 1 := by decide
theorem witness_KeySkips :
    ((State.reset.setV 1 15#8).getV 1).toNat = (15 : Fin 16).val ∧ 15 < ((State.reset.setV 1 16#8).getV 1).toNat := by
  decide
theorem witness_KeyWaitTakesPressedKeyOrRewinds :
    ({ State.reset with keys := pressing [2, 9] } : State).key 9 = true ∧ ∀ k, State.reset.key k = false := by decide
theorem witness_EveryInstructionKeepsItsFrame :
    (∃ t, exec (.jp 0x234#12) State.reset = .next t) ∧ (∃ e t, exec .ret State.reset = .fault (.raised e t)) :=
  ⟨⟨_, rfl⟩, ⟨_, _, rfl⟩⟩
theorem witness_EveryInstructionRaisesOnlyItsKind :
    ∃ e t, exec (.ldMemVx 0) { State.reset with i := 0x1000#16 } = .fault (.raised e t) := ⟨_, _, rfl⟩
theorem witness_StackErrorsComeFromCallAndReturn :
    (∃ t, step { start 0x2ABC#16 with stack := deep 15 } = .fault (.raised .stackOverflow t)) ∧
    (∃ t, step (start 0x00EE#16) = .fault (.raised .stackUnderflow t)) := ⟨⟨_, rfl⟩, ⟨_, rfl⟩⟩
/-- For `StepKeepsWellFormedState` and `HostCallsKeepWellFormedState`. -/
theorem witness_WellFormedState :
    State.wf { start 0x2ABC#16 with stack := deep 15, programImage := List.replicate 3584 0#8 } := by decide +kernel
theorem witness_StackDepthAtMostFifteen : ({ State.reset with stack := deep 15 } : State).stack.length ≤ 15 := by decide
theorem witness_StepBoundsCounter :
    State.returnsBounded { start 0x00EE#16 with stack := [0x1000#16] } ∧
    shows { start 0x00EE#16 with stack := [0x1000#16] } (·.pc) = some 0x1000#16 :=
  ⟨fun r hr => by simp only [List.mem_singleton] at hr; subst hr; decide, by decide +kernel⟩
theorem witness_SoundTimerIsNeverRead :
    (∀ x, Instr.cls ≠ .ldStVx x) ∧ ∃ x, Instr.ldStVx 3 = .ldStVx x := ⟨by simp, ⟨_, rfl⟩⟩
theorem witness_TickRunsStepsThenTimers :
    State.reset.fault = none ∧ (∃ t, runSteps 0 State.reset = .next t) ∧
    0 < State.reset.config.stepsPerTick ∧ ∃ e u, step State.reset = .fault (.raised e u) :=
  ⟨rfl, ⟨_, rfl⟩, by decide, ⟨_, _, rfl⟩⟩
theorem witness_WaitingMachinePolls : (start 0xFF0A#16).waiting :=
  ⟨by decide +kernel, by decide +kernel, by decide +kernel, by decide +kernel⟩
/-- V-C4, at the last word of memory. -/
theorem witness_EndedRunStaysEnded : (storeFetchWord { State.reset with pc := 0xFFE#16 } 0x1FFE#16).atSelfJump :=
  ⟨by decide +kernel, by decide +kernel, by decide +kernel⟩
/-- A run from the words 6005 1202, driven by a step and driven by a tick, that ends at the jump after one step. -/
theorem witness_EndedRunStaysEnded_reached :
    let first := ((start 0x6005#16).setByte 0x202 0x12#8).setByte 0x203 0x02#8
    (∃ s : State, s.endedFrom first ∧ s.getV 0 = 5#8 ∧ runCalls [.step] first = .next s) ∧
    (∃ s : State, s.endedFrom first ∧ s.getV 0 = 5#8 ∧ runCalls [.tick] first = .next s) :=
  ⟨⟨_, ⟨⟨rfl, by decide +kernel, by decide +kernel⟩, [.step], rfl, rfl⟩, by decide +kernel, rfl⟩,
    ⟨_, ⟨⟨rfl, by decide +kernel, by decide +kernel⟩, [.tick], rfl, rfl⟩, by decide +kernel, rfl⟩⟩
/-- An image that ends at the last byte; a byte of it, of the font and of neither. -/
theorem witness_MemoryResetReplaysFontAndProgram :
    blockFits State.reset.config.programBase.toNat (List.replicate 3584 1#8).length = true ∧
    (List.replicate 3584 1#8)[3583]? = some 1#8 ∧ 4095 = State.reset.config.programBase.toNat + 3583 ∧
    0x09F = State.reset.config.fontBase.val + 79 ∧ State.reset.config.fontBase.val + 80 ≤ 0x0A0 ∧
    0x0A0 < State.reset.config.programBase.toNat := by decide +kernel
theorem witness_ConstructThenLoadIsReset :
    memSize < 4017 + 80 ∧ 4016 + 80 ≤ memSize ∧ (0x200#16).toNat + (List.replicate 3584 1#8).length ≤ memSize := by
  decide +kernel
theorem witness_LoadProgramRecordsAndCopies :
    State.reset.config.programBase.toNat + (List.replicate 3584 1#8).length ≤ memSize ∧
    memSize < State.reset.config.programBase.toNat + (List.replicate 3585 1#8).length ∧
    List.replicate 3585 1#8 ≠ [] := by decide +kernel

end Sys2Proof.Tests
end

section
/-! The stack primitives (`spec/10_state.md` R20, R21). -/

namespace Sys2Proof.Machine

/-- A change of the stack changes no other part. -/
theorem changesOnly_withStack (s : State) (entries : List Word) :
    changesOnly (· = .stack) s { s with stack := entries } := by
  intro p hp
  cases p with
  | stack => exact absurd rfl hp
  | _ => rfl

/-- A pop after a push that was accepted hands back the pushed value and the state before the push. -/
theorem pop_of_push {v : Word} {s t : State} (h : push v s = .next t) : pop t = .next (v, s) := by
  obtain ⟨-, rfl⟩ := push_eq_next.1 h
  exact pop_append rfl

/-- Taking an error on the spot stops with it and changes the fault status alone (R119). -/
theorem stopsWith_raise_here {α : Type} {r : Result α} {e : Error} {s : State} (h : r = raise e s) :
    ∃ t, stopsWith r e (fun _ => False) s t :=
  ⟨_, stopsWith_raise h (changesOnly_refl _ s)⟩

/-- Settles O14: each clause is the law of `push` or `pop` for its case, with the frame of a stack change or of an error. -/
theorem stackIsLastInFirstOut : Obligations.StackIsLastInFirstOut := by
  refine ⟨fun v s hfree => ?pushFree, fun v s hfull => stopsWith_raise_here (push_full v hfull),
    fun s hne => ?popNonempty, fun s hempty => stopsWith_raise_here (pop_empty hempty)⟩
  case pushFree =>
    have hpush := push_free v hfree
    exact ⟨_, hpush, rfl, changesOnly_withStack s _, s, pop_of_push hpush, rfl⟩
  case popNonempty =>
    obtain ⟨hempty, -⟩ | ⟨rest, v, hstack, hpop⟩ := pop_cases s
    · exact absurd hempty hne
    · exact ⟨v, _, hpop, hstack.symm, changesOnly_withStack s rest⟩

end Sys2Proof.Machine
end

section
/-! Memory after a reset and the fetch from it (`spec/20_memory.md` R41, R43). -/

namespace Sys2Proof.Machine

/-! ## Memory after a reset (R41) -/

/-- An unlisted byte of the font region is the font's. -/
theorem unlistedByte_font (c : Config) (k : Fin fontSize) : unlistedByte c (c.fontBase.val + k.val) = c.font[k] := by
  have hk : k.val < c.font.toList.length := by rw [Vector.length_toList]; exact k.isLt
  rw [unlistedByte, if_pos (Nat.le_add_right ..), Nat.add_sub_cancel_left, List.getD_eq_getElem _ _ hk,
    Vector.getElem_toList]
  rfl

/-- An unlisted byte outside the font region is zero. -/
theorem unlistedByte_outside_font {c : Config} {a : Nat} (h : a < c.fontBase.val ∨ c.fontBase.val + fontSize ≤ a) :
    unlistedByte c a = 0#8 := by
  rcases h with hbelow | habove
  · rw [unlistedByte, if_neg (not_le.2 hbelow)]
  · have hlen : c.font.toList.length ≤ a - c.fontBase.val := by rw [Vector.length_toList]; omega
    rw [unlistedByte, if_pos (by omega), List.getD_eq_default _ _ hlen]

/-- After a reset byte `k` of a fitting image stands at `PROGRAM_BASE + k`, over the font too. -/
theorem byteAt_hostReset_image {s : State} {k : Nat} {b : Byte}
    (hfit : blockFits s.config.programBase.toNat s.programImage.length = true) (hb : s.programImage[k]? = some b) :
    (hostReset s).byteAt (s.config.programBase.toNat + k) = b := by
  obtain ⟨hk, hkb⟩ := List.getElem?_eq_some_iff.1 hb
  rw [State.byteAt, hostReset_mem, hostReset_config, Memory.read_resetMemory _ _ _ hfit, if_pos (by omega),
    Nat.add_sub_cancel_left, List.getD_eq_getElem _ _ hk, hkb]

/-- After a reset a byte outside a fitting image is what an unlisted address reads as. -/
theorem byteAt_hostReset_outside_image {s : State} {a : Nat}
    (hfit : blockFits s.config.programBase.toNat s.programImage.length = true)
    (hout : a < s.config.programBase.toNat ∨ s.config.programBase.toNat + s.programImage.length ≤ a) :
    (hostReset s).byteAt a = unlistedByte s.config a := by
  rw [State.byteAt, hostReset_mem, hostReset_config, Memory.read_resetMemory _ _ _ hfit, if_neg (by omega)]

/-- Settles O56: the image's bytes come first, and outside the image memory reads as if nothing was written. -/
theorem memoryResetReplaysFontAndProgram : Obligations.MemoryResetReplaysFontAndProgram := by
  intro s hfit a _
  refine ⟨?image, fun hout => ⟨?font, fun hfont => ?zero⟩⟩
  case image =>
    rintro k b hb rfl
    exact byteAt_hostReset_image hfit hb
  case font =>
    rintro k rfl
    exact (byteAt_hostReset_outside_image hfit hout).trans (unlistedByte_font s.config k)
  case zero =>
    exact (byteAt_hostReset_outside_image hfit hout).trans (unlistedByte_outside_font hfont)

/-! ## Fetch (R43) -/

/-- A change of PC changes no other part. -/
theorem changesOnly_withPc (s : State) (pc : Word) : changesOnly (· = .counter) s { s with pc := pc } := by
  intro p hp
  cases p with
  | counter => exact absurd rfl hp
  | _ => rfl

/-- PC does not wrap when it advances past a word inside memory. -/
theorem pc_add_two_toNat {pc : Word} (h : pc.toNat + 1 < memSize) : (pc + 2#16).toNat = pc.toNat + 2 := by
  have hlt : pc.toNat + 1 < 4096 := h
  exact BitVec.toNat_add_of_lt (show pc.toNat + 2 < 2 ^ 16 by omega)

/-- Settles O6: a fetch inside memory answers the word of the two bytes at PC and advances PC alone. -/
theorem fetchReadsBigEndian : Obligations.FetchReadsBigEndian := fun s h =>
  ⟨_, _, fetch_inside h, wordOfBytes_toNat _ _, pc_add_two_toNat h, changesOnly_withPc s _⟩

end Sys2Proof.Machine
end

section
/-! The fields of an instruction word, as numbers (`spec/30_encoding.md` R53). -/

namespace Sys2Proof

/-- A field of a word as a number: the bits below it are divided away, the bits above it dropped. -/
theorem extract_toNat (w : Word) (start len : Nat) :
    (w.extractLsb' start len).toNat = w.toNat / 2 ^ start % 2 ^ len := by
  rw [BitVec.extractLsb'_toNat, Nat.shiftRight_eq_div_pow]

/-- The family is the top field, so no bit above it is dropped. -/
theorem fieldF_toNat (w : Word) : (fieldF w).toNat = w.toNat / 4096 :=
  (extract_toNat w 12 4).trans (Nat.mod_eq_of_lt (Nat.div_lt_of_lt_mul w.isLt))

theorem fieldX_val (w : Word) : (fieldX w).val = w.toNat / 256 % 16 := extract_toNat w 8 4

theorem fieldY_val (w : Word) : (fieldY w).val = w.toNat / 16 % 16 := extract_toNat w 4 4

/-- A field that starts at bit 0 is a remainder. -/
theorem extract_zero_toNat (w : Word) (len : Nat) : (w.extractLsb' 0 len).toNat = w.toNat % 2 ^ len := by
  rw [extract_toNat, pow_zero, Nat.div_one]

theorem fieldN_toNat (w : Word) : (fieldN w).toNat = w.toNat % 16 := extract_zero_toNat w 4

theorem fieldNN_toNat (w : Word) : (fieldNN w).toNat = w.toNat % 256 := extract_zero_toNat w 8

theorem fieldNNN_toNat (w : Word) : (fieldNNN w).toNat = w.toNat % 4096 := extract_zero_toNat w 12

/-- Settles O1: extraction divides the lower bits away and drops the higher ones, at each of the six positions. -/
theorem fieldsOfWord : Obligations.FieldsOfWord := fun w =>
  ⟨fieldF_toNat w, fieldX_val w, fieldY_val w, fieldN_toNat w, fieldNN_toNat w, fieldNNN_toNat w⟩

end Sys2Proof
end

section
/-! Returns, jumps, calls and the skips on an immediate (`spec/41_control_flow.md` R63 to R69, R72). -/

namespace Sys2Proof.Machine

/-! ## Rows that fix the family alone (R55, R56) -/

/-- A word whose bits under the mask 0xF000 are those of `f` is of family `f`. -/
theorem fieldF_of_mask {w : Word} {f : Nibble} (h : w &&& 0xF000#16 = wordFNNN f 0#12) : fieldF w = f := by
  rw [← wordFNNN_fields w, wordFNNN_mask] at h
  simpa using congrArg fieldF h

/-- A row of mask 0xF000 decodes as its family does: no other bit of the word is looked at. -/
theorem rowDecodes_family {f : Nibble} {g : Word → Instr} (hfamily : ∀ w, fieldF w = f → decodeWord? w = some (g w)) :
    rowDecodes 0xF000#16 (wordFNNN f 0#12) g :=
  fun w hw => decodeWord_of_some (hfamily w (fieldF_of_mask hw))

/-! ## Operands as numbers -/

@[simp] theorem zextAddr_toNat (nnn : Addr12) : (zextAddr nnn).toNat = nnn.toNat :=
  BitVec.toNat_setWidth_of_le (by decide)

@[simp] theorem zextByte_toNat (b : Byte) : (zextByte b).toNat = b.toNat :=
  BitVec.toNat_setWidth_of_le (by decide)

/-- A 12-bit address and a byte add up in 16 bits without wrapping (R72). -/
theorem zextAddr_add_zextByte_toNat (nnn : Addr12) (b : Byte) :
    (zextAddr nnn + zextByte b).toNat = nnn.toNat + b.toNat := by
  have hnnn : nnn.toNat < 4096 := nnn.isLt
  have hb : b.toNat < 256 := b.isLt
  have hfits : (zextAddr nnn).toNat + (zextByte b).toNat < 2 ^ 16 := by
    rw [zextAddr_toNat, zextByte_toNat]
    omega
  rw [BitVec.toNat_add_of_lt hfits, zextAddr_toNat, zextByte_toNat]

/-! ## The fetch after a jump to the end of memory (R66, R72) -/

/-- With PC on the last byte of memory the second byte of the pair is the one outside. -/
theorem fetch_at_last_byte {s : State} (h : s.pc.toNat = 0xFFF) : fetch s = raise (.addressOutOfBounds 4096 4096) s := by
  rw [fetch_outside (by rw [h]), h]
  rfl

/-! ## Skips (R63) -/

/-- PC after a conditional skip, as a number modulo 2^16. -/
theorem skipIf_pc_toNat (c : Bool) (s : State) :
    (skipIf c s).pc.toNat = if c then (s.pc.toNat + 2) % 2 ^ 16 else s.pc.toNat := by
  cases c <;> rfl

/-- A skip on equal bytes. -/
theorem skipIf_beq_pc_toNat (a b : Byte) (s : State) :
    (skipIf (a == b) s).pc.toNat = if a.toNat = b.toNat then (s.pc.toNat + 2) % 2 ^ 16 else s.pc.toNat := by
  simp only [skipIf_pc_toNat, beq_iff_eq, BitVec.toNat_inj]

/-- A skip on different bytes. -/
theorem skipIf_bne_pc_toNat (a b : Byte) (s : State) :
    (skipIf (a != b) s).pc.toNat = if a.toNat = b.toNat then s.pc.toNat else (s.pc.toNat + 2) % 2 ^ 16 := by
  simp only [skipIf_pc_toNat, bne_iff_ne, BitVec.toNat_inj, ne_eq, ite_not]

/-! ## Calls and returns (R65, R67) -/

/-- A change of stack and PC changes no other part (R64). -/
theorem changesOnly_withStackPc (s : State) (entries : List Word) (pc : Word) :
    changesOnly (fun p => p = .counter ∨ p = .stack) s { s with stack := entries, pc := pc } :=
  changesOnly_trans (changesOnly_mono (fun _ => .inr) (changesOnly_withStack s entries))
    (changesOnly_mono (fun _ => .inl) (changesOnly_withPc { s with stack := entries } pc))

theorem exec_call_free {s : State} (nnn : Addr12) (h : s.stack.length < stackMaxDepth) :
    exec (.call nnn) s = .next { s with stack := s.stack ++ [s.pc], pc := zextAddr nnn } := by
  rw [exec, execCall, push_free _ h, andThen_next]

theorem exec_call_full {s : State} (nnn : Addr12) (h : stackMaxDepth ≤ s.stack.length) :
    exec (.call nnn) s = raise .stackOverflow s := by
  rw [exec, execCall, push_full _ h, andThen_raise]

theorem exec_ret_append {s : State} {rest : List Word} {v : Word} (h : s.stack = rest ++ [v]) :
    exec .ret s = .next { s with stack := rest, pc := v } := by
  rw [exec, execRet, pop_append h, andThen_next]

theorem exec_ret_empty {s : State} (h : s.stack = []) : exec .ret s = raise .stackUnderflow s := by
  rw [exec, execRet, pop_empty h, andThen_raise]

/-! ## The obligations -/

/-- Settles O16: the 12-bit target is PC as it is, and the pair of bytes at 0xFFF ends outside memory. -/
theorem jumpSetsCounter : Obligations.JumpSetsCounter :=
  ⟨rowDecodes_family (f := 0x1#4) fun w hf => by simp [decodeWord?, hf],
    fun nnn s => ⟨_, rfl, zextAddr_toNat nnn, changesOnly_withPc s _,
      fun hlast => stopsWith_raise_here (fetch_at_last_byte ((zextAddr_toNat nnn).trans hlast))⟩⟩

/-- Settles O17: the sum does not wrap, so from 4095 on it is a PC whose pair of bytes does not lie inside memory. -/
theorem jumpOffsetAddsRegisterZero : Obligations.JumpOffsetAddsRegisterZero := by
  refine ⟨rowDecodes_family (f := 0xB#4) fun w hf => by simp [decodeWord?, hf], fun nnn s => ?_⟩
  have hpc := zextAddr_add_zextByte_toNat nnn (s.getV regV0)
  refine ⟨_, rfl, hpc, changesOnly_withPc s _, fun hend => ⟨_, stopsWith_raise_here (fetch_outside ?outside)⟩⟩
  case outside =>
    rw [hpc]
    exact Nat.succ_le_succ hend

/-- Settles O18: the push decides; accepted, the jump follows, and refused, its error is the call's. -/
theorem callPushesReturnAddress : Obligations.CallPushesReturnAddress :=
  ⟨rowDecodes_family (f := 0x2#4) fun w hf => by simp [decodeWord?, hf],
    fun nnn s => ⟨
      fun hfree => ⟨_, exec_call_free nnn hfree, rfl, zextAddr_toNat nnn, changesOnly_withStackPc s _ _⟩,
      fun hfull => stopsWith_raise_here (exec_call_full nnn hfull)⟩⟩

/-- Settles O19: the pop decides; its value is PC unchecked, and its error is the return's. -/
theorem returnPopsCounter : Obligations.ReturnPopsCounter :=
  ⟨rfl, fun s => ⟨
    fun _ _ hstack => ⟨_, exec_ret_append hstack, rfl, rfl, changesOnly_withStackPc s _ _⟩,
    fun hempty => stopsWith_raise_here (exec_ret_empty hempty)⟩⟩

/-- Settles O20: the two conditions are each other's negation, and a skip changes PC alone. -/
theorem immediateSkips : Obligations.ImmediateSkips :=
  ⟨rowDecodes_family (f := 0x3#4) fun w hf => by simp [decodeWord?, hf],
    rowDecodes_family (f := 0x4#4) fun w hf => by simp [decodeWord?, hf],
    fun x nn s => ⟨
      ⟨_, rfl, skipIf_beq_pc_toNat (s.getV x) nn s, changesOnly_skipIf _ s⟩,
      ⟨_, rfl, skipIf_bne_pc_toNat (s.getV x) nn s, changesOnly_skipIf _ s⟩⟩⟩

end Sys2Proof.Machine
end

section
/-! Register loads and the addition of an immediate (`spec/42_alu.md` R75 to R77). -/

namespace Sys2Proof.Machine

/-! ## Rows that fix the family and the low nibble (R55, R56) -/

/-- A word whose bits under the mask 0xF00F are those of `f` and `n` is of family `f` and ends in `n`. -/
theorem fieldF_fieldN_of_mask {w : Word} {f n : Nibble} (h : w &&& 0xF00F#16 = wordFXYN f 0 0 n) :
    fieldF w = f ∧ fieldN w = n := by
  rw [← wordFXYN_fields w, wordFXYN_mask] at h
  exact ⟨by simpa using congrArg fieldF h, by simpa using congrArg fieldN h⟩

/-- A row of mask 0xF00F decodes as its family and low nibble do: no other bit of the word is looked at. -/
theorem rowDecodes_familyNibble {f n : Nibble} {g : Word → Instr}
    (hrow : ∀ w, fieldF w = f → fieldN w = n → decodeWord? w = some (g w)) :
    rowDecodes 0xF00F#16 (wordFXYN f 0 0 n) g := by
  intro w hw
  obtain ⟨hf, hn⟩ := fieldF_fieldN_of_mask hw
  exact decodeWord_of_some (hrow w hf hn)

/-! ## Instructions that write one register -/

/-- An outcome that writes one register: the value is read back there, and nothing else changes. -/
theorem next_setV {r : Result State} {s : State} {x : Reg} {b : Byte} (h : r = .next (s.setV x b)) :
    ∃ t, r = .next t ∧ t.getV x = b ∧ changesOnly (· = .reg x) s t :=
  ⟨_, h, State.getV_setV_same s x b, changesOnly_setV x b s⟩

/-! ## The obligations -/

/-- Settles O22: both loads write one register, with the immediate or the old Vy. -/
theorem registerLoads : Obligations.RegisterLoads :=
  ⟨rowDecodes_family (f := 0x6#4) fun w hf => by simp [decodeWord?, hf],
    rowDecodes_familyNibble (f := 0x8#4) (n := 0x0#4) fun w hf hn => by simp [decodeWord?, decodeFamily8, hf, hn],
    fun _ _ => ⟨fun _ => next_setV rfl, fun _ => next_setV rfl⟩⟩

/-- Settles O23: the byte sum is the sum modulo 256, and the one register written is Vx. -/
theorem addImmediateWrapsWithoutFlag : Obligations.AddImmediateWrapsWithoutFlag := by
  refine ⟨rowDecodes_family (f := 0x7#4) fun w hf => by simp [decodeWord?, hf], fun x nn s => ?_⟩
  obtain ⟨t, hexec, hsum, hframe⟩ := next_setV (show exec (.addImm x nn) s = .next (s.setV x (s.getV x + nn)) from rfl)
  exact ⟨t, hexec, by rw [hsum, BitVec.toNat_add], hframe⟩

end Sys2Proof.Machine
end

section
/-! The loads of the index register (`spec/43_index_memory.md` R88, R90). -/

namespace Sys2Proof.Machine

/-! ## Rows that fix the family and the low byte (R55, R56) -/

/-- A word whose bits under the mask 0xF0FF are those of `f` and `nn` is of family `f` and ends in `nn`. -/
theorem fieldF_fieldNN_of_mask {w : Word} {f : Nibble} {nn : Byte} (h : w &&& 0xF0FF#16 = wordFXNN f 0 nn) :
    fieldF w = f ∧ fieldNN w = nn := by
  rw [← wordFXNN_fields w, wordFXNN_mask] at h
  exact ⟨by simpa using congrArg fieldF h, by simpa using congrArg fieldNN h⟩

/-- A row of mask 0xF0FF decodes as its family and low byte do: no other bit of the word is looked at. -/
theorem rowDecodes_familyByte {f : Nibble} {nn : Byte} {g : Word → Instr}
    (hrow : ∀ w, fieldF w = f → fieldNN w = nn → decodeWord? w = some (g w)) :
    rowDecodes 0xF0FF#16 (wordFXNN f 0 nn) g := by
  intro w hw
  obtain ⟨hf, hnn⟩ := fieldF_fieldNN_of_mask hw
  exact decodeWord_of_some (hrow w hf hnn)

/-! ## The index register -/

/-- A change of I changes no other part. -/
theorem changesOnly_withIndex (s : State) (i : Word) : changesOnly (· = .index) s { s with i := i } := by
  intro p hp
  cases p with
  | index => exact absurd rfl hp
  | _ => rfl

/-- The glyph address of any byte fits 16 bits: FONT_BASE is at most 4016 and the offset at most 1275 (R90). -/
theorem glyphAddress_lt (c : Config) (b : Byte) : c.fontBase.val + 5 * b.toNat < 2 ^ 16 := by
  have hbase : c.fontBase.val < 4017 := c.fontBase.isLt
  have hb : b.toNat < 256 := b.isLt
  omega

/-! ## The obligation -/

/-- Settles O29: both loads change I alone, and neither the address nor the glyph address loses a bit in 16. -/
theorem indexLoads : Obligations.IndexLoads :=
  ⟨rowDecodes_family (f := 0xA#4) fun w hf => by simp [decodeWord?, hf],
    rowDecodes_familyByte (f := 0xF#4) (nn := 0x29#8) fun w hf hnn => by simp [decodeWord?, decodeFamilyF, hf, hnn],
    fun s => ⟨
      fun nnn => ⟨_, rfl, zextAddr_toNat nnn, changesOnly_withIndex s _⟩,
      fun x => ⟨_, rfl, Nat.mod_eq_of_lt (glyphAddress_lt s.config (s.getV x)), changesOnly_withIndex s _⟩⟩⟩

end Sys2Proof.Machine
end

section
/-! The clear of the display (`spec/44_display.md` R95). -/

namespace Sys2Proof.Machine

/-- A change of the framebuffer changes pixels alone, VF included among what stays. -/
theorem changesOnly_withFramebuffer (s : State) (fb : Framebuffer) :
    changesOnly (fun p => ∃ px py, p = .pixel px py) s { s with fb := fb } := by
  intro p hp
  cases p with
  | pixel px py => exact absurd ⟨px, py, rfl⟩ hp
  | _ => rfl

/-- Settles O35: the clear puts the all-off framebuffer in place of the old one. -/
theorem clearTurnsEveryPixelOff : Obligations.ClearTurnsEveryPixelOff :=
  ⟨rfl, fun s => ⟨_, rfl, Framebuffer.get_clear, changesOnly_withFramebuffer s _⟩⟩

end Sys2Proof.Machine
end

section
/-! The errors of a step (`spec/60_exceptions.md` R112 to R117): which kinds each operation and each instruction can raise,
and where the stack errors and `OpcodeNotImplemented` come from. -/

namespace Sys2Proof.Machine

/-! ## The kinds an outcome can raise, by the operation it is built with -/

/-- Where an outcome stops with an error, the error is of the given kinds. -/
def raisesOnly {α : Type} (kinds : Error → Prop) (r : Result α) : Prop := ∀ e t, r = .fault (.raised e t) → kinds e

/-- The error of an access outside memory (R113). -/
def outsideMemory (e : Error) : Prop := ∃ a, memSize ≤ a ∧ e = .addressOutOfBounds a memSize

theorem raisesOnly_next {α : Type} (kinds : Error → Prop) (a : α) : raisesOnly kinds (.next a) := nofun

theorem raisesOnly_raise {α : Type} (e : Error) (s : State) : raisesOnly (· = e) (raise e s : Result α) :=
  fun _ _ h => (raise_eq_fault.1 h).1

/-- A sequence raises what its parts raise. -/
theorem raisesOnly_andThen {α β : Type} {kinds : Error → Prop} {r : Result α} {f : α → Result β}
    (hr : raisesOnly kinds r) (hf : ∀ a, raisesOnly kinds (f a)) : raisesOnly kinds (andThen r f) := by
  intro e t h
  rcases andThen_eq_fault.1 h with hfirst | ⟨a, -, hrest⟩
  · exact hr e t hfirst
  · exact hf a e t hrest

/-- A loop raises what its body raises. -/
theorem raisesOnly_forEach {α : Type} {kinds : Error → Prop} {body : Nat → α → Result α}
    (hbody : ∀ k a, raisesOnly kinds (body k a)) (count first : Nat) (a : α) :
    raisesOnly kinds (forEach count first body a) := by
  induction count generalizing first a with
  | zero => exact raisesOnly_next kinds a
  | succ n ih => exact raisesOnly_andThen (hbody first a) (ih (first + 1))

theorem raisesOnly_memRead (a : Nat) (s : State) : raisesOnly outsideMemory (memRead a s) := by
  intro e t h
  obtain ⟨hout, he, -⟩ := memRead_eq_fault.1 h
  exact ⟨a, hout, he⟩

theorem raisesOnly_memWrite (a : Nat) (b : Byte) (s : State) : raisesOnly outsideMemory (memWrite a b s) := by
  intro e t h
  obtain ⟨hout, he, -⟩ := memWrite_eq_fault.1 h
  exact ⟨a, hout, he⟩

/-- A key test raises only its index error where what follows the test raises nothing (R101, R102). -/
theorem raisesOnly_withKey (x : Reg) (s : State) (f : Bool → State) :
    raisesOnly (· = .unspecified .keyIndexOutOfRange) (withKey x s fun pressed => .next (f pressed)) := by
  rcases Nat.lt_or_ge (s.getV x).toNat 16 with h | h
  · rw [withKey_inside _ h]
    exact raisesOnly_next _ _
  · rw [withKey_outside _ h]
    exact raisesOnly_raise _ s

/-! ## The kinds an instruction can raise (R112) -/

/-- A call stops exactly on a full stack, with the push's error, and leaves the state but for the fault status (R114). -/
theorem exec_call_eq_fault {nnn : Addr12} {s t : State} {e : Error} :
    exec (.call nnn) s = .fault (.raised e t) ↔
      stackMaxDepth ≤ s.stack.length ∧ e = .stackOverflow ∧ t = { s with fault := some .stackOverflow } := by
  rcases Nat.lt_or_ge s.stack.length stackMaxDepth with h | h
  · simp [exec_call_free nnn h, h]
  · simp only [exec_call_full nnn h, raise_eq_fault, h, true_and]

/-- A return stops exactly on an empty stack, with the pop's error, and leaves the state but for the fault status
(R115). -/
theorem exec_ret_eq_fault {s t : State} {e : Error} :
    exec .ret s = .fault (.raised e t) ↔
      s.stack = [] ∧ e = .stackUnderflow ∧ t = { s with fault := some .stackUnderflow } := by
  obtain ⟨h, -⟩ | ⟨rest, v, h, -⟩ := pop_cases s
  · simp only [exec_ret_empty h, raise_eq_fault, h, true_and]
  · simp [exec_ret_append h, h]

/-- Each instruction raises only the kinds its row of the table gives it. -/
theorem exec_raisesOnly (i : Instr) (s : State) : raisesOnly (mayRaise i) (exec i s) := by
  cases i with
  | ret => exact fun e t h => (exec_ret_eq_fault.1 h).2.1
  | call nnn => exact fun e t h => (exec_call_eq_fault.1 h).2.1
  | drw x y n =>
    exact raisesOnly_andThen
      (raisesOnly_forEach (fun _ _ => raisesOnly_andThen (raisesOnly_memRead _ _) fun _ => raisesOnly_next _ _) _ _ _)
      fun _ => raisesOnly_next _ _
  | ldBVx x =>
    exact raisesOnly_andThen (raisesOnly_memWrite _ _ s) fun t =>
      raisesOnly_andThen (raisesOnly_memWrite _ _ t) fun u => raisesOnly_memWrite _ _ u
  | ldMemVx x => exact raisesOnly_forEach (fun _ t => raisesOnly_memWrite _ _ t) _ _ s
  | ldVxMem x =>
    exact raisesOnly_forEach (fun _ t => raisesOnly_andThen (raisesOnly_memRead _ t) fun _ => raisesOnly_next _ _) _ _ s
  | addIVx x =>
    rw [exec, execAddIVx]
    split
    · exact raisesOnly_raise _ s
    · exact raisesOnly_next _ _
  | skp x => exact raisesOnly_withKey x s (skipIf · s)
  | sknp x => exact raisesOnly_withKey x s fun pressed => skipIf (!pressed) s
  | ldVxK x =>
    rw [exec, execLdVxK]
    split <;> exact raisesOnly_next _ _
  | _ => exact raisesOnly_next _ _

/-- `StackOverflow` is the kind of calls alone. -/
theorem mayRaise_stackOverflow {i : Instr} : mayRaise i .stackOverflow ↔ ∃ nnn, i = .call nnn := by
  cases i with
  | call nnn => exact ⟨fun _ => ⟨nnn, rfl⟩, fun _ => rfl⟩
  | _ => simp [mayRaise]

/-- `StackUnderflow` is the kind of returns alone. -/
theorem mayRaise_stackUnderflow {i : Instr} : mayRaise i .stackUnderflow ↔ i = .ret := by
  cases i with
  | ret => exact ⟨fun _ => rfl, fun _ => rfl⟩
  | _ => simp [mayRaise]

/-! ## The errors of a step (R108, R116) -/

/-- A step that stops raised the fetch's error, rejected the word at PC, or executed the instruction there, and that
raised one of its own kinds. -/
theorem step_eq_fault {s t : State} {e : Error} (h : step s = .fault (.raised e t)) :
    (∃ a, e = .addressOutOfBounds a memSize) ∨ e = .opcodeNotImplemented (s.wordAt s.pc.toNat) ∨
    ∃ i, decodeWord (s.wordAt s.pc.toNat) = .ok i ∧ mayRaise i e ∧
      exec i { s with pc := s.pc + 2#16 } = .fault (.raised e t) := by
  rcases step_cases s with ⟨_, _, hs⟩ | ⟨_, _, hs⟩ | ⟨_, _, _, hs⟩ | ⟨i, _, _, hd, hs⟩ <;> rw [hs] at h
  · cases h
  · exact .inl ⟨_, (raise_eq_fault.1 h).1⟩
  · exact .inr (.inl (raise_eq_fault.1 h).1)
  · exact .inr (.inr ⟨i, hd, exec_raisesOnly i _ e t h, h⟩)

/-- A step on a word that names no instruction raises, PC already advanced (R116). -/
theorem step_unassigned {s : State} {e : DecodeError} (hf : s.fault = none) (h : s.pc.toNat + 1 < memSize)
    (hd : decodeWord (s.wordAt s.pc.toNat) = .error e) :
    step s = raise (.opcodeNotImplemented (s.wordAt s.pc.toNat)) { s with pc := s.pc + 2#16 } := by
  rw [step, fetchInstr_unassigned hf h hd, andThen_raise]

/-! ## The obligations -/

/-- Settles O44: neither error is a fetch's or a decoder's, so the instruction raised it: a call or a return, by its kind. -/
theorem stackErrorsComeFromCallAndReturn : Obligations.StackErrorsComeFromCallAndReturn := by
  refine ⟨fun s t h => ?overflow, fun s t h => ?underflow⟩
  case overflow =>
    obtain ⟨_, ⟨⟩⟩ | ⟨⟨⟩⟩ | ⟨i, hd, hkind, hexec⟩ := step_eq_fault h
    obtain ⟨nnn, rfl⟩ := mayRaise_stackOverflow.1 hkind
    obtain ⟨hfull, -, rfl⟩ := exec_call_eq_fault.1 hexec
    exact ⟨⟨nnn, hd⟩, hfull, rfl⟩
  case underflow =>
    obtain ⟨_, ⟨⟩⟩ | ⟨⟨⟩⟩ | ⟨i, hd, hkind, hexec⟩ := step_eq_fault h
    obtain rfl := mayRaise_stackUnderflow.1 hkind
    obtain ⟨hempty, -, rfl⟩ := exec_ret_eq_fault.1 hexec
    exact ⟨hd, hempty, rfl⟩

/-- Settles O9: the word does not decode, so the step is the raise after the fetch's advance of PC. -/
theorem unassignedWordRaises : Obligations.UnassignedWordRaises := by
  intro s hf h hno
  cases hd : decodeWord (s.wordAt s.pc.toNat) with
  | ok i => exact absurd hd (hno i)
  | error e => exact ⟨_, stopsWith_raise (step_unassigned hf h hd) (changesOnly_withPc s _), pc_add_two_toNat h⟩

end Sys2Proof.Machine
end

section
/-! Decoding and encoding (`spec/30_encoding.md` R52 to R59): the two round trips and the rows of the opcode map. -/

namespace Sys2Proof

/-! ## Decoding an encoded instruction -/

/-- Every pattern of R56 keeps the family and the operands apart, so the decoder reads both back. -/
theorem decodeWord?_encodeWord (i : Instr) : decodeWord? (encodeWord i) = some i := by
  cases i with
  | cls | ret => rfl
  | jp _ | call _ | ldI _ | jpV0 _ => simp [encodeWord, decodeWord?]
  | seImm _ _ | sneImm _ _ | ldImm _ _ | addImm _ _ | rnd _ _ => simp [encodeWord, decodeWord?]
  | seReg _ _ | sneReg _ _ | drw _ _ _ => simp [encodeWord, decodeWord?]
  | skp _ | sknp _ => simp [encodeWord, decodeWord?, decodeFamilyE]
  | ldVxDt _ | ldVxK _ | ldDtVx _ | ldStVx _ | addIVx _ | ldFVx _ | ldBVx _ | ldMemVx _ | ldVxMem _ =>
    simp [encodeWord, decodeWord?, decodeFamilyF]
  | ldReg _ _ | or _ _ | and _ _ | xor _ _ | addReg _ _ | sub _ _ | shr _ _ | subn _ _ | shl _ _ =>
    simp [encodeWord, decodeWord?, decodeFamily8]

theorem decodeWord_encodeWord (i : Instr) : decodeWord (encodeWord i) = .ok i :=
  decodeWord_of_some (decodeWord?_encodeWord i)

/-- Settles O2: the two bytes make the instruction's word again, and that word decodes to the instruction. -/
theorem decodeEncodeRoundTrip : Obligations.DecodeEncodeRoundTrip := by
  intro i rest
  simp only [encode, List.cons_append, List.nil_append, decode, wordOfBytes_bytes, decodeWord_encodeWord]

/-- Settles O5: each word is the encoding of its instruction. -/
theorem sampleWordsDecode : Obligations.SampleWordsDecode :=
  ⟨decodeWord_encodeWord .cls, decodeWord_encodeWord (.jp 0x234#12), decodeWord_encodeWord (.ldImm 2 0xF1#8),
    decodeWord_encodeWord (.addReg 10 11), decodeWord_encodeWord (.ldI 0x123#12),
    decodeWord_encodeWord (.drw 1 2 0xF#4), decodeWord_encodeWord (.skp 5), decodeWord_encodeWord (.ldBVx 3)⟩

/-! ## Encoding a decoded instruction -/

/-- A word of family `f` is built from `f` and its own operand fields. -/
theorem wordFNNN_of_family {w : Word} {f : Nibble} (hf : fieldF w = f) : wordFNNN f (fieldNNN w) = w :=
  hf ▸ wordFNNN_fields w

theorem wordFXNN_of_family {w : Word} {f : Nibble} (hf : fieldF w = f) : wordFXNN f (fieldX w) (fieldNN w) = w :=
  hf ▸ wordFXNN_fields w

theorem wordFXYN_of_family {w : Word} {f : Nibble} (hf : fieldF w = f) :
    wordFXYN f (fieldX w) (fieldY w) (fieldN w) = w :=
  hf ▸ wordFXYN_fields w

/-- A word of family `f` that ends in `nn` is built from both and its own `x`. -/
theorem wordFXNN_of_familyByte {w : Word} {f : Nibble} {nn : Byte} (hf : fieldF w = f) (hnn : fieldNN w = nn) :
    wordFXNN f (fieldX w) nn = w :=
  hnn ▸ wordFXNN_of_family hf

/-- A word of family `f` that ends in `n` is built from both and its own `x` and `y`. -/
theorem wordFXYN_of_familyNibble {w : Word} {f n : Nibble} (hf : fieldF w = f) (hn : fieldN w = n) :
    wordFXYN f (fieldX w) (fieldY w) n = w :=
  hn ▸ wordFXYN_of_family hf

theorem encodeWord_of_decodeFamily0 {w : Word} {i : Instr} (h : decodeFamily0 w = some i) : encodeWord i = w := by
  unfold decodeFamily0 at h
  split at h
  · next hw => cases h; exact hw.symm
  · split at h
    · next hw => cases h; exact hw.symm
    · cases h

theorem encodeWord_of_decodeFamily8 {w : Word} {i : Instr} (hf : fieldF w = 0x8#4) (h : decodeFamily8 w = some i) :
    encodeWord i = w := by
  unfold decodeFamily8 at h
  split at h <;> cases h <;> next hn => exact wordFXYN_of_familyNibble hf (BitVec.eq_of_toNat_eq hn)

theorem encodeWord_of_decodeFamilyE {w : Word} {i : Instr} (hf : fieldF w = 0xE#4) (h : decodeFamilyE w = some i) :
    encodeWord i = w := by
  unfold decodeFamilyE at h
  split at h <;> cases h <;> next hnn => exact wordFXNN_of_familyByte hf (BitVec.eq_of_toNat_eq hnn)

theorem encodeWord_of_decodeFamilyF {w : Word} {i : Instr} (hf : fieldF w = 0xF#4) (h : decodeFamilyF w = some i) :
    encodeWord i = w := by
  unfold decodeFamilyF at h
  split at h <;> cases h <;> next hnn => exact wordFXNN_of_familyByte hf (BitVec.eq_of_toNat_eq hnn)

/-- The decoder drops no bit: family and operands of the instruction make up the whole word. -/
theorem encodeWord_of_decodeWord? {w : Word} {i : Instr} (h : decodeWord? w = some i) : encodeWord i = w := by
  unfold decodeWord? at h
  split at h
  next => exact encodeWord_of_decodeFamily0 h
  next hf => cases h; exact wordFNNN_of_family (BitVec.eq_of_toNat_eq hf)
  next hf => cases h; exact wordFNNN_of_family (BitVec.eq_of_toNat_eq hf)
  next hf => cases h; exact wordFXNN_of_family (BitVec.eq_of_toNat_eq hf)
  next hf => cases h; exact wordFXNN_of_family (BitVec.eq_of_toNat_eq hf)
  next hf =>
    obtain ⟨hn, hi⟩ := Option.ite_none_right_eq_some.1 h
    cases hi; exact wordFXYN_of_familyNibble (BitVec.eq_of_toNat_eq hf) hn
  next hf => cases h; exact wordFXNN_of_family (BitVec.eq_of_toNat_eq hf)
  next hf => cases h; exact wordFXNN_of_family (BitVec.eq_of_toNat_eq hf)
  next hf => exact encodeWord_of_decodeFamily8 (BitVec.eq_of_toNat_eq hf) h
  next hf =>
    obtain ⟨hn, hi⟩ := Option.ite_none_right_eq_some.1 h
    cases hi; exact wordFXYN_of_familyNibble (BitVec.eq_of_toNat_eq hf) hn
  next hf => cases h; exact wordFNNN_of_family (BitVec.eq_of_toNat_eq hf)
  next hf => cases h; exact wordFNNN_of_family (BitVec.eq_of_toNat_eq hf)
  next hf => cases h; exact wordFXNN_of_family (BitVec.eq_of_toNat_eq hf)
  next hf => cases h; exact wordFXYN_of_family (BitVec.eq_of_toNat_eq hf)
  next hf => exact encodeWord_of_decodeFamilyE (BitVec.eq_of_toNat_eq hf) h
  next hf => exact encodeWord_of_decodeFamilyF (BitVec.eq_of_toNat_eq hf) h
  next => cases h

/-- Settles O3: each family's decoder gives an instruction whose pattern and operands are the word's own fields. -/
theorem encodeDecodeRoundTrip : Obligations.EncodeDecodeRoundTrip :=
  fun _ _ h => encodeWord_of_decodeWord? (decodeWord_eq_ok.1 h)

/-! ## The rows of the opcode map (R56) -/

/-- The instruction of the same row as `i` with its operands taken from a word (R54). -/
def Instr.withOperands (w : Word) : Instr → Instr
  | .cls => .cls
  | .ret => .ret
  | .jp _ => .jp (fieldNNN w)
  | .call _ => .call (fieldNNN w)
  | .seImm _ _ => .seImm (fieldX w) (fieldNN w)
  | .sneImm _ _ => .sneImm (fieldX w) (fieldNN w)
  | .seReg _ _ => .seReg (fieldX w) (fieldY w)
  | .ldImm _ _ => .ldImm (fieldX w) (fieldNN w)
  | .addImm _ _ => .addImm (fieldX w) (fieldNN w)
  | .ldReg _ _ => .ldReg (fieldX w) (fieldY w)
  | .or _ _ => .or (fieldX w) (fieldY w)
  | .and _ _ => .and (fieldX w) (fieldY w)
  | .xor _ _ => .xor (fieldX w) (fieldY w)
  | .addReg _ _ => .addReg (fieldX w) (fieldY w)
  | .sub _ _ => .sub (fieldX w) (fieldY w)
  | .shr _ _ => .shr (fieldX w) (fieldY w)
  | .subn _ _ => .subn (fieldX w) (fieldY w)
  | .shl _ _ => .shl (fieldX w) (fieldY w)
  | .sneReg _ _ => .sneReg (fieldX w) (fieldY w)
  | .ldI _ => .ldI (fieldNNN w)
  | .jpV0 _ => .jpV0 (fieldNNN w)
  | .rnd _ _ => .rnd (fieldX w) (fieldNN w)
  | .drw _ _ _ => .drw (fieldX w) (fieldY w) (fieldN w)
  | .skp _ => .skp (fieldX w)
  | .sknp _ => .sknp (fieldX w)
  | .ldVxDt _ => .ldVxDt (fieldX w)
  | .ldVxK _ => .ldVxK (fieldX w)
  | .ldDtVx _ => .ldDtVx (fieldX w)
  | .ldStVx _ => .ldStVx (fieldX w)
  | .addIVx _ => .addIVx (fieldX w)
  | .ldFVx _ => .ldFVx (fieldX w)
  | .ldBVx _ => .ldBVx (fieldX w)
  | .ldMemVx _ => .ldMemVx (fieldX w)
  | .ldVxMem _ => .ldVxMem (fieldX w)

@[simp] theorem opcodeRow_withOperands (w : Word) (i : Instr) : opcodeRow (i.withOperands w) = opcodeRow i := by
  cases i <;> rfl

/-- A word whose bits under the mask 0xF00F are those of `f` and `n` has them at its ends. -/
theorem wordFXYN_of_mask {w : Word} {f n : Nibble} (h : w &&& 0xF00F#16 = wordFXYN f 0 0 n) :
    wordFXYN f (fieldX w) (fieldY w) n = w :=
  wordFXYN_of_familyNibble (Machine.fieldF_fieldN_of_mask h).1 (Machine.fieldF_fieldN_of_mask h).2

/-- A word whose bits under the mask 0xF0FF are those of `f` and `nn` has them at its ends. -/
theorem wordFXNN_of_mask {w : Word} {f : Nibble} {nn : Byte} (h : w &&& 0xF0FF#16 = wordFXNN f 0 nn) :
    wordFXNN f (fieldX w) nn = w :=
  wordFXNN_of_familyByte (Machine.fieldF_fieldNN_of_mask h).1 (Machine.fieldF_fieldNN_of_mask h).2

/-- A word in the row of an instruction is that instruction's word with the word's own operands. -/
theorem encodeWord_withOperands {w : Word} {i : Instr} (h : w &&& (opcodeRow i).1 = (opcodeRow i).2) :
    encodeWord (i.withOperands w) = w := by
  cases i with
  | cls | ret => exact h.symm.trans (BitVec.and_allOnes (x := w))
  | jp _ | call _ | ldI _ | jpV0 _ => exact wordFNNN_of_family (Machine.fieldF_of_mask h)
  | seImm _ _ | sneImm _ _ | ldImm _ _ | addImm _ _ | rnd _ _ => exact wordFXNN_of_family (Machine.fieldF_of_mask h)
  | drw _ _ _ => exact wordFXYN_of_family (Machine.fieldF_of_mask h)
  | seReg _ _ | sneReg _ _ | ldReg _ _ | or _ _ | and _ _ | xor _ _ | addReg _ _ | sub _ _ | shr _ _ | subn _ _
  | shl _ _ => exact wordFXYN_of_mask h
  | _ => exact wordFXNN_of_mask h

/-- A word in the row of an instruction decodes to that instruction with the word's own operands (R54, R55). -/
theorem decodeWord?_of_row (i : Instr) {w : Word} (h : w &&& (opcodeRow i).1 = (opcodeRow i).2) :
    decodeWord? w = some (i.withOperands w) := by
  rw [← decodeWord?_encodeWord (i.withOperands w), encodeWord_withOperands h]

/-- Every row of the map decodes, whatever the operands of the instruction that names it. -/
theorem rowDecodes_opcodeRow (i : Instr) :
    Machine.rowDecodes (opcodeRow i).1 (opcodeRow i).2 (fun w => i.withOperands w) :=
  fun _ h => decodeWord_of_some (decodeWord?_of_row i h)

/-- The encoder puts every instruction in its own row. -/
theorem encodeWord_and_opcodeRow (i : Instr) : encodeWord i &&& (opcodeRow i).1 = (opcodeRow i).2 := by
  cases i with
  | cls | ret => rfl
  | seReg _ _ | sneReg _ _ | ldReg _ _ | or _ _ | and _ _ | xor _ _ | addReg _ _ | sub _ _ | shr _ _ | subn _ _
  | shl _ _ => exact wordFXYN_mask ..
  | skp _ | sknp _ | ldVxDt _ | ldVxK _ | ldDtVx _ | ldStVx _ | addIVx _ | ldFVx _ | ldBVx _ | ldMemVx _ | ldVxMem _ =>
    exact wordFXNN_mask ..
  | _ => exact wordFNNN_mask ..

/-- A word that decodes is in the row of its instruction. -/
theorem row_of_decodeWord? {w : Word} {i : Instr} (h : decodeWord? w = some i) :
    w &&& (opcodeRow i).1 = (opcodeRow i).2 := by
  rw [← encodeWord_of_decodeWord? h, encodeWord_and_opcodeRow]

/-- One instruction of each row, in the map's order. -/
def rowSamples : List Instr :=
  [.cls, .ret, .jp 0, .call 0, .seImm 0 0, .sneImm 0 0, .seReg 0 0, .ldImm 0 0, .addImm 0 0, .ldReg 0 0, .or 0 0, .and 0 0,
    .xor 0 0, .addReg 0 0, .sub 0 0, .shr 0 0, .subn 0 0, .shl 0 0, .sneReg 0 0, .ldI 0, .jpV0 0, .rnd 0 0, .drw 0 0 0,
    .skp 0, .sknp 0, .ldVxDt 0, .ldVxK 0, .ldDtVx 0, .ldStVx 0, .addIVx 0, .ldFVx 0, .ldBVx 0, .ldMemVx 0, .ldVxMem 0]

theorem opcodeTable_eq : opcodeTable = rowSamples.map opcodeRow := rfl

/-- The map lists the rows of the instructions and nothing else. -/
theorem mem_opcodeTable {row : Word × Word} : row ∈ opcodeTable ↔ ∃ i, opcodeRow i = row := by
  constructor
  · intro h
    obtain ⟨i, -, hi⟩ := List.mem_map.1 (opcodeTable_eq ▸ h)
    exact ⟨i, hi⟩
  · rintro ⟨i, rfl⟩
    cases i <;> simp [opcodeRow, opcodeTable]

/-- Settles O4: a row is an instruction's, and a word in it decodes to that instruction with the word's own operands, so
the word's decoding determines the row. -/
theorem wordNamesInstructionIffOneRowMatches : Obligations.WordNamesInstructionIffOneRowMatches := by
  intro w
  simp only [matchesRow, beq_iff_eq, beq_eq_false_iff_ne]
  refine ⟨⟨?inRow, ?decodes⟩, ?unique, ?rejected⟩
  case inRow =>
    rintro ⟨i, h⟩
    exact ⟨opcodeRow i, mem_opcodeTable.2 ⟨i, rfl⟩, row_of_decodeWord? (decodeWord_eq_ok.1 h)⟩
  case decodes =>
    rintro ⟨row, hrow, h⟩
    obtain ⟨i, rfl⟩ := mem_opcodeTable.1 hrow
    exact ⟨_, rowDecodes_opcodeRow i w h⟩
  case unique =>
    intro p hp q hq hwp hwq
    obtain ⟨i, rfl⟩ := mem_opcodeTable.1 hp
    obtain ⟨j, rfl⟩ := mem_opcodeTable.1 hq
    have hsame : i.withOperands w = j.withOperands w :=
      Option.some.inj ((decodeWord?_of_row i hwp).symm.trans (decodeWord?_of_row j hwq))
    rw [← opcodeRow_withOperands w i, hsame, opcodeRow_withOperands]
  case rejected =>
    intro hno
    cases hd : decodeWord? w with
    | none => exact decodeWord_of_none hd
    | some i => exact absurd (row_of_decodeWord? hd) (hno _ (mem_opcodeTable.2 ⟨i, rfl⟩))

end Sys2Proof
end

section
/-! Memory, block loads, construction and reset (`spec/20_memory.md` R35 to R41, `spec/70_reset_and_hazards.md` R133 to
R137). -/

namespace Sys2Proof.Machine

/-! ## One-byte accesses (R35, R36) -/

/-- Settles O12: each clause is the law of `memRead` or `memWrite` for its side of the bound. -/
theorem memoryAccessesCheckBound : Obligations.MemoryAccessesCheckBound := fun a s => ⟨
  fun hin => ⟨memRead_inside s hin,
    fun b => ⟨_, memWrite_inside b s hin, State.byteAt_setByte_same s a b, changesOnly_setByte a b s⟩⟩,
  fun hout => ⟨stopsWith_raise_here (memRead_outside s hout),
    fun b => stopsWith_raise_here (memWrite_outside b s hout)⟩⟩

/-- Settles O11: the two stores went to different addresses, so the fetch reads one byte of each. -/
theorem fetchSeesEarlierStores : Obligations.FetchSeesEarlierStores := by
  intro s t u hi lo ht hu
  obtain ⟨-, rfl⟩ := memWrite_eq_next.1 ht
  obtain ⟨hin, rfl⟩ := memWrite_eq_next.1 hu
  have hword : ((s.setByte s.pc.toNat hi).setByte (s.pc.toNat + 1) lo).wordAt s.pc.toNat = wordOfBytes hi lo := by
    rw [State.wordAt, State.byteAt_setByte_other _ _ (by omega), State.byteAt_setByte_same, State.byteAt_setByte_same]
  rw [← hword]
  exact ⟨_, fetch_inside hin⟩

/-! ## The canonical form (R33) -/

/-- The cells of a canonical memory are the bytes that read otherwise than unlisted. -/
theorem Memory.mem_iff_read {c : Config} {m : Memory} (h : m.wf c) {p : Host.Cell} :
    p ∈ m ↔ Memory.read c m p.1 = p.2 ∧ p.2 ≠ unlistedByte c p.1 := by
  refine ⟨fun hp => ⟨Memory.read_of_mem h hp, (h.2 p hp).2⟩, fun ⟨hread, hne⟩ => ?_⟩
  by_contra hno
  refine hne (hread.symm.trans (Memory.read_of_unlisted c m p.1 fun q hq haddr => hno ?_))
  have hbyte : q.2 = p.2 := by rw [← Memory.read_of_mem h hq, haddr, hread]
  rwa [← Prod.ext haddr hbyte]

theorem Memory.nodup_of_wf {c : Config} {m : Memory} (h : m.wf c) : m.Nodup :=
  h.1.imp (S := (· ≠ ·)) fun hlt => ne_of_apply_ne Prod.fst (Nat.ne_of_lt hlt)

/-- Settles O13: reads determine the cells, and the rising addresses their order. -/
theorem equalReadsMeanEqualMemory : Obligations.EqualReadsMeanEqualMemory := by
  intro c m n hm hn hreads
  have hcells : ∀ p, p ∈ m ↔ p ∈ n := fun p => by rw [Memory.mem_iff_read hm, Memory.mem_iff_read hn, hreads]
  have hperm : m.Perm n := (List.perm_ext_iff_of_nodup (Memory.nodup_of_wf hm) (Memory.nodup_of_wf hn)).2 hcells
  exact hperm.eq_of_pairwise (fun _ _ _ _ hlt hgt => absurd hgt (Nat.lt_asymm hlt)) hm.1 hn.1

/-! ## Block loads (R38, R40) -/

theorem blockFits_iff {base : Nat} {bytes : List Byte} :
    blockFits base bytes.length = true ↔ bytes = [] ∨ base + bytes.length ≤ memSize := by
  rw [blockFits, decide_eq_true_iff, List.length_eq_zero_iff]

theorem not_blockFits {base : Nat} {bytes : List Byte} (hne : bytes ≠ []) (hend : memSize < base + bytes.length) :
    ¬ blockFits base bytes.length = true := by
  rw [blockFits_iff]
  exact not_or.2 ⟨hne, Nat.not_le.2 hend⟩

/-- Byte `k` of a stored block stands at `base + k`. -/
theorem byteAt_withBlock {s : State} {base k : Nat} {bytes : List Byte} {b : Byte} (hb : bytes[k]? = some b) :
    ({ s with mem := s.mem.writeBlock s.config base bytes } : State).byteAt (base + k) = b := by
  obtain ⟨hk, hkb⟩ := List.getElem?_eq_some_iff.1 hb
  rw [State.byteAt, Memory.read_writeBlock, if_pos (by omega), Nat.add_sub_cancel_left, List.getD_eq_getElem _ _ hk, hkb]

/-- A stored block changes the bytes it covers alone. -/
theorem changesOnly_withBlock (s : State) (base : Nat) (bytes : List Byte) :
    changesOnly (fun p => ∃ k, k < bytes.length ∧ p = .byte (base + k)) s
      { s with mem := s.mem.writeBlock s.config base bytes } := by
  intro p hp
  cases p with
  | byte a =>
    have hout : ¬ (base ≤ a ∧ a < base + bytes.length) := fun ⟨hle, hlt⟩ =>
      hp ⟨a - base, by omega, by rw [Nat.add_sub_cancel' hle]⟩
    exact (Memory.read_writeBlock ..).trans (if_neg hout)
  | _ => rfl

/-- Settles O15: the one check on the whole block decides between the copy and the error. -/
theorem blockLoadChecksFinalAddress : Obligations.BlockLoadChecksFinalAddress := fun base bytes s => ⟨
  fun hfit => ⟨_, load_fits s (blockFits_iff.2 hfit), fun _ _ hb => byteAt_withBlock hb, changesOnly_withBlock s base bytes⟩,
  fun hne hend => stopsWith_raise_here (load_overflows s (not_blockFits hne hend))⟩

/-- A change of the program image changes no other part. -/
theorem changesOnly_withImage (s : State) (image : List Byte) :
    changesOnly (· = .image) s { s with programImage := image } := by
  intro p hp
  cases p with
  | image => exact absurd rfl hp
  | _ => rfl

/-- A program that fits is recorded and copied to PROGRAM_BASE (R40). -/
theorem loadProgram_fits {bytes : List Byte} {s : State} (h : blockFits s.config.programBase.toNat bytes.length = true) :
    loadProgram bytes s = .next { s with
      programImage := bytes, mem := s.mem.writeBlock s.config s.config.programBase.toNat bytes } := by
  rw [loadProgram, if_pos h, load_fits _ h]

theorem loadProgram_refused {bytes : List Byte} {s : State}
    (h : ¬ blockFits s.config.programBase.toNat bytes.length = true) :
    loadProgram bytes s = .refused (.programDoesNotFit s.config.programBase.toNat bytes.length) :=
  if_neg h

/-- Settles O60: the check that admits the image is the one its copy passes, so an image is recorded and copied or neither. -/
theorem loadProgramRecordsAndCopies : Obligations.LoadProgramRecordsAndCopies := by
  intro bytes s
  refine ⟨fun hfit => ⟨_, loadProgram_fits (blockFits_iff.2 hfit), rfl, fun k b hb => ?copied, ?frame⟩,
    fun hne hend => loadProgram_refused (not_blockFits hne hend)⟩
  case copied => exact byteAt_withBlock (s := { s with programImage := bytes }) hb
  case frame =>
    exact changesOnly_trans (changesOnly_mono (fun _ => .inl) (changesOnly_withImage s bytes))
      (changesOnly_mono (fun _ => .inr) (changesOnly_withBlock { s with programImage := bytes } _ bytes))

/-! ## Construction and reset (R133, R134) -/

theorem resetMemory_fits {c : Config} {image : List Byte} (h : blockFits c.programBase.toNat image.length = true) :
    resetMemory c image = Memory.writeBlock c [] c.programBase.toNat image :=
  if_pos h

theorem construct_fits {base : Word} {fontBase steps : Nat} {font : Vector Byte fontSize} {order : FlagWriteOrder}
    (h : fontBase < memSize - fontSize + 1) :
    construct base fontBase steps font order = .next (State.constructed {
      programBase := base, fontBase := ⟨fontBase, h⟩, stepsPerTick := steps, font := font, flagWriteOrder := order }) :=
  dif_pos h

theorem construct_refused {base : Word} {fontBase steps : Nat} {font : Vector Byte fontSize} {order : FlagWriteOrder}
    (h : ¬ fontBase < memSize - fontSize + 1) :
    construct base fontBase steps font order = .refused (.fontDoesNotFit fontBase) :=
  dif_neg h

/-- The state after construction and a load of a fitting image is the state a reset leaves. -/
theorem hostReset_constructed_load (c : Config) {image : List Byte}
    (h : blockFits c.programBase.toNat image.length = true) :
    hostReset { State.constructed c with
        programImage := image, mem := Memory.writeBlock c [] c.programBase.toNat image } =
      { State.constructed c with programImage := image, mem := Memory.writeBlock c [] c.programBase.toNat image } :=
  congrArg (fun m => { State.constructed c with programImage := image, mem := m }) (resetMemory_fits h)

/-- Settles O59: a construction is a load of the empty image, and a load after it leaves memory as a reset replays it. -/
theorem constructThenLoadIsReset : Obligations.ConstructThenLoadIsReset := by
  intro base fontBase steps font order
  refine ⟨fun hover => construct_refused (by simp only [memSize, fontSize] at *; omega), fun hfit => ?constructed⟩
  case constructed =>
    have hbase : fontBase < memSize - fontSize + 1 := by simp only [memSize, fontSize] at *; omega
    refine ⟨_, construct_fits hbase, rfl, rfl, rfl, rfl, rfl, rfl, rfl, fun k => ?unpressed,
      hostReset_constructed_load _ (image := []) (blockFits_iff.2 (.inl rfl)), fun bytes hbytes => ?loaded⟩
    case unpressed => exact Vector.getElem_replicate k.isLt
    case loaded =>
      exact ⟨_, loadProgram_fits (blockFits_iff.2 hbytes), rfl, hostReset_constructed_load _ (blockFits_iff.2 hbytes)⟩

theorem wf_constructed (c : Config) : (State.constructed c).wf :=
  ⟨Memory.wf_nil c, Nat.zero_le _, blockFits_iff.2 (.inl rfl)⟩

/-- Settles O47: memory and stack are empty, and the empty image fits anywhere. -/
theorem resetStateWellFormed : Obligations.ResetStateWellFormed :=
  ⟨wf_constructed {}, nofun, wf_constructed⟩

/-- Settles O57: a reset starts from the state at construction and puts back what it keeps. -/
theorem resetClearsExecutionState : Obligations.ResetClearsExecutionState := fun _ =>
  ⟨fun x => Vector.getElem_replicate x.isLt, rfl, rfl, rfl, rfl, Framebuffer.get_clear, rfl, rfl, rfl, rfl, rfl⟩

end Sys2Proof.Machine
end

section
/-! The instructions one by one: skips, logic, flags, random, index, timers and keypad (`spec/41_control_flow.md`,
`spec/42_alu.md`, `spec/43_index_memory.md` R89, `spec/45_timers_keypad.md`). -/

namespace Sys2Proof.Machine

/-! ## Register skips and logic (R70, R71, R78 to R80) -/

/-- Settles O21: the two conditions are each other's negation, and a skip changes PC alone. -/
theorem registerSkips : Obligations.RegisterSkips :=
  ⟨rowDecodes_opcodeRow (.seReg 0 0), rowDecodes_opcodeRow (.sneReg 0 0), fun x y s => ⟨
    ⟨_, rfl, skipIf_beq_pc_toNat (s.getV x) (s.getV y) s, changesOnly_skipIf _ s⟩,
    ⟨_, rfl, skipIf_bne_pc_toNat (s.getV x) (s.getV y) s, changesOnly_skipIf _ s⟩⟩⟩

/-- Settles O24: the one register written is Vx, and the word operations are bitwise. -/
theorem logicIsBitwiseWithoutFlag : Obligations.LogicIsBitwiseWithoutFlag := by
  refine ⟨rowDecodes_opcodeRow (.or 0 0), rowDecodes_opcodeRow (.and 0 0), rowDecodes_opcodeRow (.xor 0 0),
    fun x y s => ⟨?or, ?and, ?xor⟩⟩
  case or => exact ⟨_, rfl, changesOnly_setV x _ s, fun b => by rw [State.getV_setV_same, BitVec.getLsbD_or]⟩
  case and => exact ⟨_, rfl, changesOnly_setV x _ s, fun b => by rw [State.getV_setV_same, BitVec.getLsbD_and]⟩
  case xor => exact ⟨_, rfl, changesOnly_setV x _ s, fun b => by rw [State.getV_setV_same, BitVec.getLsbD_xor]⟩

/-! ## Flag writers (R74, R81 to R85) -/

/-- The flag writer leaves a result and a flag as numbers, in the order the configuration gives. -/
theorem resultAndFlag_writeResultAndFlag {x : Reg} {r : Byte} {f : Bool} {s : State} {result flag : Nat}
    (hr : r.toNat = result) (hf : (flagByte f).toNat = flag) :
    resultAndFlag x result flag s (writeResultAndFlag x r f s) := by
  subst hr hf
  refine ⟨fun hx => ?destination, ?flag, changesOnly_writeResultAndFlag x r f s⟩
  case destination => rw [getV_writeResultAndFlag, if_pos ⟨rfl, .inl hx⟩]
  case flag =>
    rw [getV_writeResultAndFlag]
    by_cases h : x = regVF ∧ s.config.flagWriteOrder = .resultLast
    · rw [if_pos h, if_pos ⟨h.1.symm, .inr h.2⟩]
    · have hlast : ¬ (regVF = x ∧ (x ≠ regVF ∨ s.config.flagWriteOrder = .resultLast)) := by
        rintro ⟨rfl, hne | horder⟩
        exacts [hne rfl, h ⟨rfl, horder⟩]
      rw [if_neg h, if_neg hlast, if_pos rfl]

theorem flagByte_carry_toNat (a b : Byte) :
    (flagByte (carry a b)).toNat = if 255 < a.toNat + b.toNat then 1 else 0 := by
  simp only [flagByte_toNat, carry, decide_eq_true_eq]

theorem flagByte_notBorrow_toNat (a b : Byte) :
    (flagByte (notBorrow a b)).toNat = if a.toNat < b.toNat then 0 else 1 := by
  simp only [flagByte_toNat, notBorrow, Bool.not_eq_true', decide_eq_false_iff_not, ite_not]

/-- Bit 0 is the remainder by 2. -/
theorem flagByte_shiftedOutRight_toNat (a : Byte) : (flagByte (shiftedOutRight a)).toNat = a.toNat % 2 := by
  rw [flagByte_toNat, shiftedOutRight, BitVec.getLsbD, Nat.testBit_zero]
  rcases Nat.mod_two_eq_zero_or_one a.toNat with h | h <;> rw [h] <;> rfl

/-- Bit 7 is the quotient by 128. -/
theorem flagByte_shiftedOutLeft_toNat (a : Byte) : (flagByte (shiftedOutLeft a)).toNat = a.toNat / 128 := by
  have hmsb : shiftedOutLeft a = decide (128 ≤ a.toNat) := BitVec.msb_eq_decide a
  have hlt : a.toNat < 256 := a.isLt
  rw [flagByte_toNat, hmsb]
  split <;> simp only [decide_eq_true_eq] at * <;> omega

/-- The difference modulo 256, written without a negative number. -/
theorem byte_sub_toNat (a b : Byte) : (a - b).toNat = (a.toNat + 256 - b.toNat) % 256 := by
  have hb : b.toNat < 256 := b.isLt
  have hdiff : 2 ^ 8 - b.toNat + a.toNat = a.toNat + 256 - b.toNat := by omega
  rw [BitVec.toNat_sub, hdiff]

/-- Settles O25: result and carry are both of the old operands. -/
theorem addSetsCarry : Obligations.AddSetsCarry :=
  ⟨rowDecodes_opcodeRow (.addReg 0 0), fun _ _ _ =>
    ⟨_, rfl, resultAndFlag_writeResultAndFlag (BitVec.toNat_add ..) (flagByte_carry_toNat ..)⟩⟩

/-- Settles O26: the two subtractions are one, with the operands exchanged. -/
theorem subtractionsSetNotBorrow : Obligations.SubtractionsSetNotBorrow :=
  ⟨rowDecodes_opcodeRow (.sub 0 0), rowDecodes_opcodeRow (.subn 0 0), fun _ _ _ => ⟨
    ⟨_, rfl, resultAndFlag_writeResultAndFlag (byte_sub_toNat ..) (flagByte_notBorrow_toNat ..)⟩,
    ⟨_, rfl, resultAndFlag_writeResultAndFlag (byte_sub_toNat ..) (flagByte_notBorrow_toNat ..)⟩⟩⟩

/-- Settles O27: halving and doubling, with the remainder and the quotient the byte cannot hold as the flag. -/
theorem shiftsCaptureBitShiftedOut : Obligations.ShiftsCaptureBitShiftedOut := by
  refine ⟨rowDecodes_opcodeRow (.shr 0 0), rowDecodes_opcodeRow (.shl 0 0), fun x y s => ⟨?right, ?left⟩⟩
  case right =>
    have hhalf : (s.getV x >>> 1).toNat = (s.getV x).toNat / 2 := by
      rw [BitVec.toNat_ushiftRight, Nat.shiftRight_eq_div_pow]
    exact ⟨_, rfl, resultAndFlag_writeResultAndFlag hhalf (flagByte_shiftedOutRight_toNat _)⟩
  case left =>
    have hdouble : (s.getV x <<< 1).toNat = (s.getV x).toNat * 2 % 256 := by
      rw [BitVec.toNat_shiftLeft, Nat.shiftLeft_eq]
    exact ⟨_, rfl, resultAndFlag_writeResultAndFlag hdouble (flagByte_shiftedOutLeft_toNat _)⟩

/-! ## The draw of a random byte (R86) -/

/-- A change of the count of draws changes no other part. -/
theorem changesOnly_withDraws (s : State) (draws : Nat) : changesOnly (· = .draws) s { s with draws := draws } := by
  intro p hp
  cases p with
  | draws => exact absurd rfl hp
  | _ => rfl

/-- A register written after a draw: that register and the count of draws change. -/
theorem changesOnly_draw_setV (s : State) (x : Reg) (b : Byte) :
    changesOnly (fun p => p = .reg x ∨ p = .draws) s (({ s with draws := s.draws + 1 } : State).setV x b) :=
  changesOnly_trans (changesOnly_mono (fun _ => .inr) (changesOnly_withDraws s _))
    (changesOnly_mono (fun _ => .inl) (changesOnly_setV x b _))

/-- Settles O28: the mask clears every bit outside it, whatever byte is drawn. -/
theorem randomByteUnderMask : Obligations.RandomByteUnderMask := by
  refine ⟨rowDecodes_opcodeRow (.rnd 0 0), fun x nn s => ?_⟩
  refine ⟨_, rfl, State.getV_setV_same .., fun b hb => ?masked, rfl, changesOnly_draw_setV s x _⟩
  case masked => rw [State.getV_setV_same, BitVec.getLsbD_and, hb, Bool.and_false]

/-! ## The addition to I (R89) -/

theorem exec_addIVx_fits {x : Reg} {s : State} (h : s.i.toNat + (s.getV x).toNat ≤ 0xFFFF) :
    exec (.addIVx x) s = .next { s with i := BitVec.ofNat 16 (s.i.toNat + (s.getV x).toNat) } :=
  if_neg (Nat.not_lt.2 h)

theorem exec_addIVx_overflows {x : Reg} {s : State} (h : 0xFFFF < s.i.toNat + (s.getV x).toNat) :
    exec (.addIVx x) s = raise (.unspecified .indexOverflow) s :=
  if_pos h

/-- Settles O30: a sum that passes the check loses no bit in 16. -/
theorem indexAddOrOverflow : Obligations.IndexAddOrOverflow :=
  ⟨rowDecodes_opcodeRow (.addIVx 0), fun _ s => ⟨
    fun hfits => ⟨_, exec_addIVx_fits hfits, Nat.mod_eq_of_lt (Nat.lt_succ_of_le hfits), changesOnly_withIndex s _⟩,
    fun hover => stopsWith_raise_here (exec_addIVx_overflows hover)⟩⟩

/-! ## Timers (R105 to R107, R110, R111) -/

/-- A change of DT changes no other part. -/
theorem changesOnly_withDt (s : State) (dt : Byte) : changesOnly (· = .delayTimer) s { s with dt := dt } := by
  intro p hp
  cases p with
  | delayTimer => exact absurd rfl hp
  | _ => rfl

/-- A change of ST changes no other part. -/
theorem changesOnly_withSt (s : State) (st : Byte) : changesOnly (· = .soundTimer) s { s with st := st } := by
  intro p hp
  cases p with
  | soundTimer => exact absurd rfl hp
  | _ => rfl

theorem soundOn_iff (s : State) : soundOn s = true ↔ 0 < s.st.toNat := decide_eq_true_iff

/-- Settles O40: each transfer writes one part, and the sound output is a function of ST. -/
theorem timerTransfers : Obligations.TimerTransfers :=
  ⟨rowDecodes_opcodeRow (.ldVxDt 0), rowDecodes_opcodeRow (.ldDtVx 0), rowDecodes_opcodeRow (.ldStVx 0), fun _ s => ⟨
    next_setV rfl, ⟨_, rfl, rfl, changesOnly_withDt s _⟩, ⟨_, rfl, rfl, soundOn_iff _, changesOnly_withSt s _⟩⟩⟩

/-- The timer decrement changes the timers alone (R110). -/
theorem changesOnly_decrementTimers (s : State) :
    changesOnly (fun p => p = .delayTimer ∨ p = .soundTimer) s (decrementTimers s) :=
  changesOnly_trans (changesOnly_mono (fun _ => .inl) (changesOnly_withDt s _))
    (changesOnly_mono (fun _ => .inr) (changesOnly_withSt { s with dt := decrementTimer s.dt } _))

/-- Settles O41: one decrement for each timer, and the sound output reads ST. -/
theorem timersCountDownToZero : Obligations.TimersCountDownToZero := fun s =>
  ⟨decrementTimer_toNat s.dt, decrementTimer_toNat s.st, changesOnly_decrementTimers s, soundOn_iff s⟩

/-! ## Keypad (R101 to R103) -/

theorem exec_skp (x : Reg) (s : State) :
    exec (.skp x) s = withKey x s fun pressed => .next (skipIf pressed s) := rfl

theorem exec_sknp (x : Reg) (s : State) :
    exec (.sknp x) s = withKey x s fun pressed => .next (skipIf (!pressed) s) := rfl

/-- The key test where the register holds the number of a key. -/
theorem withKey_key {x : Reg} {s : State} {k : Fin 16} (f : Bool → Result State) (h : (s.getV x).toNat = k.val) :
    withKey x s f = f (s.key k) := by
  rw [withKey_inside f (h ▸ k.isLt)]
  exact congrArg (fun j => f (s.key j)) (Fin.ext h)

/-- A skip on a key that is not pressed. -/
theorem skipIf_not_pc_toNat (c : Bool) (s : State) :
    (skipIf (!c) s).pc.toNat = if c then s.pc.toNat else (s.pc.toNat + 2) % 2 ^ 16 := by
  cases c <;> rfl

/-- Settles O38: the key exists or the index is above 15, and with a key the two conditions are each other's negation. -/
theorem keySkips : Obligations.KeySkips :=
  ⟨rowDecodes_opcodeRow (.skp 0), rowDecodes_opcodeRow (.sknp 0), fun _ s => ⟨
    fun k hk => ⟨
      ⟨_, (exec_skp _ s).trans (withKey_key _ hk), skipIf_pc_toNat (s.key k) s, changesOnly_skipIf _ s⟩,
      ⟨_, (exec_sknp _ s).trans (withKey_key _ hk), skipIf_not_pc_toNat (s.key k) s, changesOnly_skipIf _ s⟩⟩,
    fun hout => ⟨
      stopsWith_raise_here ((exec_skp _ s).trans (withKey_outside _ hout)),
      stopsWith_raise_here ((exec_sknp _ s).trans (withKey_outside _ hout))⟩⟩⟩

theorem pressedKeys_eq_nil {s : State} : s.pressedKeys = [] ↔ ∀ k, s.key k = false := by
  simp only [List.eq_nil_iff_forall_not_mem, State.mem_pressedKeys, Bool.not_eq_true]

theorem exec_ldVxK_waits {x : Reg} {s : State} (h : ∀ k, s.key k = false) :
    exec (.ldVxK x) s = .next { s with pc := s.pc - 2#16 } := by
  rw [exec, execLdVxK, pressedKeys_eq_nil.2 h]

/-- With a key pressed Fx0A writes the number of a pressed key, the one the draw picks. -/
theorem exec_ldVxK_takes {s : State} (x : Reg) (h : ∃ k, s.key k = true) :
    ∃ k, s.key k = true ∧
      exec (.ldVxK x) s = .next (({ s with draws := s.draws + 1 } : State).setV x (BitVec.ofNat 8 k.val)) := by
  cases hS : s.pressedKeys with
  | nil =>
    obtain ⟨k, hk⟩ := h
    exact absurd (pressedKeys_eq_nil.1 hS k) (by simp [hk])
  | cons k ks =>
    refine ⟨_, (s.mem_pressedKeys _).1 (hS ▸ drawKeyChoice_mem k ks s), ?_⟩
    simp only [exec, execLdVxK, hS, drawKeyChoice_snd]

/-- PC after a rewind by 2, modulo 2^16. -/
theorem pc_sub_two_toNat (pc : Word) : (pc - 2#16).toNat = (pc.toNat + 2 ^ 16 - 2) % 2 ^ 16 := by
  rw [BitVec.toNat_sub, Nat.add_comm]
  rfl

/-- Settles O39: with a key pressed the draw is among the pressed keys, with none the wait rewinds. -/
theorem keyWaitTakesPressedKeyOrRewinds : Obligations.KeyWaitTakesPressedKeyOrRewinds := by
  refine ⟨rowDecodes_opcodeRow (.ldVxK 0), fun x s => ⟨fun hpressed => ?takes, fun hnone => ?waits⟩⟩
  case takes =>
    obtain ⟨k, hk, hexec⟩ := exec_ldVxK_takes x hpressed
    have hnumber : (BitVec.ofNat 8 k.val).toNat = k.val := Nat.mod_eq_of_lt (by omega)
    exact ⟨_, k, hexec, hk, (congrArg _ (State.getV_setV_same ..)).trans hnumber, changesOnly_draw_setV s x _⟩
  case waits => exact ⟨_, exec_ldVxK_waits hnone, pc_sub_two_toNat s.pc, changesOnly_withPc s _⟩

end Sys2Proof.Machine
end

section
/-! Decimal digits, block transfers and draws (`spec/43_index_memory.md` R91 to R94, `spec/44_display.md` R96 to R99), each
up to the end of memory and past it. -/

namespace Sys2Proof.Machine

/-! ## Loops that stop at the end of memory (R113, R119) -/

/-- The address of a byte depends on I alone. -/
theorem dataAddress_of_index {s t : State} (h : t.i = s.i) (k : Nat) : t.dataAddress k = s.dataAddress k := by
  rw [State.dataAddress, State.dataAddress, h]

/-- A loop whose first `m` iterations go on and whose next one raises, raises. -/
theorem forEach_raises {α : Type} {count m : Nat} {body : Nat → α → Result α} {e : Error} {a b : α} {t : State}
    (hm : m < count) (hgo : forEach m 0 body a = .next b) (hstop : body m b = raise e t) :
    forEach count 0 body a = raise e t :=
  forEach_stops hm hgo ((Nat.zero_add m).symm ▸ hstop)

/-- The addresses before the first one outside memory are inside. -/
theorem dataAddress_lt_of_lt_bytesInside {s : State} {k : Nat} (h : k < bytesInside s) : s.dataAddress k < memSize :=
  (dataAddress_lt_iff s k).2 h

/-- The first address outside memory. -/
theorem memSize_le_dataAddress_bytesInside (s : State) : memSize ≤ s.dataAddress (bytesInside s) :=
  Nat.not_lt.1 fun h => Nat.lt_irrefl _ ((dataAddress_lt_iff s _).1 h)

/-! ## Decimal digits (R91, R92) -/

/-- Settles O32: the 256 scratch values end in the three digits that division gives. -/
theorem doubleDabbleGivesDecimalDigits : Obligations.DoubleDabbleGivesDecimalDigits := by
  have hsame : ∀ b : Byte, doubleDabble b = decimalDigits b := by decide +kernel
  intro b
  rw [hsame]
  exact decimalDigits_toNat b

/-- Digit `k` of a byte as Fx33 stores it. -/
def digitByte (b : Byte) : Nat → Byte
  | 0 => (decimalDigits b).1
  | 1 => (decimalDigits b).2.1
  | _ => (decimalDigits b).2.2

theorem digitByte_toNat (b : Byte) : ∀ k, (digitByte b k).toNat = digitAt b.toNat k
  | 0 => (decimalDigits_toNat b).1
  | 1 => (decimalDigits_toNat b).2.1
  | _ + 2 => (decimalDigits_toNat b).2.2

/-- One of Fx33's three stores: address and digit are those of the state before the first. -/
def storeDigit (x : Reg) (s : State) (k : Nat) (t : State) : Result State :=
  memWrite (s.dataAddress k) (digitByte (s.getV x) k) t

@[simp] theorem andThen_next_right {α : Type} (r : Result α) : andThen r .next = r := by
  cases r <;> rfl

/-- Fx33 is the loop of its three stores. -/
theorem exec_ldBVx (x : Reg) (s : State) : exec (.ldBVx x) s = forEach 3 0 (storeDigit x s) s :=
  congrArg (andThen (storeDigit x s 0 s)) (funext fun t =>
    congrArg (andThen (storeDigit x s 1 t)) (funext fun u => (andThen_next_right (storeDigit x s 2 u)).symm))

/-- The first `count` digit stores, all inside memory: the digits stored, and nothing else changed. -/
theorem storeDigits_inside (x : Reg) (s : State) (count : Nat) (h : ∀ k, k < count → s.dataAddress k < memSize) :
    ∃ t, forEach count 0 (storeDigit x s) s = .next t ∧
      (∀ k, k < count → (t.byteAt (s.dataAddress k)).toNat = digitAt (s.getV x).toNat k) ∧
      changesOnly (fun p => ∃ k, k < count ∧ p = .byte (s.dataAddress k)) s t := by
  induction count with
  | zero => exact ⟨s, rfl, nofun, changesOnly_refl _ s⟩
  | succ n ih =>
    obtain ⟨t, ht, hdigits, hframe⟩ := ih fun k hk => h k (by omega)
    refine ⟨t.setByte (s.dataAddress n) (digitByte (s.getV x) n), ?stores, fun k hk => ?digit, ?frame⟩
    case stores => rw [forEach_succ_last, ht, andThen_next, Nat.zero_add, storeDigit, memWrite_inside _ _ (h n (by omega))]
    case digit =>
      rcases Nat.lt_succ_iff_lt_or_eq.1 hk with hk | rfl
      · rw [State.byteAt_setByte_other _ _ (by simp only [State.dataAddress]; omega), hdigits k hk]
      · rw [State.byteAt_setByte_same, digitByte_toNat]
    case frame =>
      exact changesOnly_trans (changesOnly_mono (fun p ⟨k, hk, hp⟩ => ⟨k, by omega, hp⟩) hframe)
        (changesOnly_mono (fun p hp => ⟨n, by omega, hp⟩) (changesOnly_setByte _ _ t))

/-- Settles O31: the three stores, or those before the first address outside memory and the error there. -/
theorem decimalDigitsStored : Obligations.DecimalDigitsStored := by
  refine ⟨rowDecodes_opcodeRow (.ldBVx 0), fun x s => ⟨fun hlast => ?inside, fun k hk hbefore hout => ?outside⟩⟩ <;>
    rw [exec_ldBVx]
  case inside => exact storeDigits_inside x s 3 fun k hk => by simp only [State.dataAddress] at *; omega
  case outside =>
    obtain ⟨t, ht, hdigits, hframe⟩ := storeDigits_inside x s k hbefore
    exact ⟨_, stopsWith_raise (forEach_raises hk ht (memWrite_outside _ t hout)) hframe, hdigits⟩

/-! ## Block transfers (R93, R94) -/

/-- One store of Fx55. -/
def storeReg (k : Nat) (t : State) : Result State := memWrite (t.dataAddress k) (t.getV (regOfNat k)) t

/-- One load of Fx65. -/
def loadReg (k : Nat) (t : State) : Result State :=
  andThen (memRead (t.dataAddress k) t) fun b => .next (t.setV (regOfNat k) b)

theorem exec_ldMemVx (x : Reg) (s : State) : exec (.ldMemVx x) s = forEach (x.val + 1) 0 storeReg s := rfl

theorem exec_ldVxMem (x : Reg) (s : State) : exec (.ldVxMem x) s = forEach (x.val + 1) 0 loadReg s := rfl

/-- The index `k` of a block byte names the register `k`. -/
theorem exists_reg {k : Nat} {x : Reg} (h : k ≤ x.val) : ∃ r : Reg, r.val = k :=
  ⟨⟨k, Nat.lt_of_le_of_lt h x.isLt⟩, rfl⟩

/-- Settles O33: the stores of the whole block, or those before the first address outside memory and the error there. -/
theorem registersStored : Obligations.RegistersStored := by
  refine ⟨rowDecodes_opcodeRow (.ldMemVx 0), fun x s => ⟨fun hlast => ?inside, fun hout => ?outside⟩⟩
  case inside =>
    obtain ⟨t, ht, hbytes, hframe⟩ := storeRegs_inside (x.val + 1) s fun k hk => by
      simp only [State.dataAddress] at *; omega
    refine ⟨t, ht, fun r hr => (hbytes r.val (Nat.lt_succ_of_le hr)).trans (by rw [regOfNat_val]), ?_⟩
    refine changesOnly_mono (fun p => ?_) hframe
    rintro ⟨k, hk, rfl⟩
    obtain ⟨r, rfl⟩ := exists_reg (Nat.le_of_lt_succ hk)
    exact ⟨r, Nat.le_of_lt_succ hk, rfl⟩
  case outside =>
    have hm : bytesInside s < x.val + 1 := by simp only [State.dataAddress, bytesInside] at *; omega
    obtain ⟨t, ht, hbytes, hframe⟩ := storeRegs_inside (bytesInside s) s fun k => dataAddress_lt_of_lt_bytesInside
    have haddr : t.dataAddress (bytesInside s) = s.dataAddress (bytesInside s) :=
      dataAddress_of_index (hframe .index (by simp)) _
    have hstop := memWrite_outside (t.getV (regOfNat (bytesInside s))) t (memSize_le_dataAddress_bytesInside s)
    refine ⟨_, stopsWith_raise (forEach_raises hm ht (haddr ▸ hstop)) (changesOnly_mono (fun p => ?_) hframe),
      fun r hr => (hbytes r.val hr).trans (by rw [regOfNat_val])⟩
    rintro ⟨k, hk, rfl⟩
    obtain ⟨r, rfl⟩ := exists_reg (x := x) (k := k) (by omega)
    exact ⟨r, hk, rfl⟩

/-- Settles O34: the loads of the whole block, or those before the first address outside memory and the error there. -/
theorem registersLoaded : Obligations.RegistersLoaded := by
  refine ⟨rowDecodes_opcodeRow (.ldVxMem 0), fun x s => ⟨fun hlast => ?inside, fun hout => ?outside⟩⟩
  case inside =>
    obtain ⟨t, ht, hregs, hframe⟩ := loadRegs_inside (x.val + 1) x.isLt s fun k hk => by
      simp only [State.dataAddress] at *; omega
    exact ⟨t, ht, fun r hr => hregs r (Nat.lt_succ_of_le hr),
      changesOnly_mono (fun p ⟨r, hr, hp⟩ => ⟨r, Nat.le_of_lt_succ hr, hp⟩) hframe⟩
  case outside =>
    have hm : bytesInside s < x.val + 1 := by simp only [State.dataAddress, bytesInside] at *; omega
    obtain ⟨t, ht, hregs, hframe⟩ := loadRegs_inside (bytesInside s) (by omega) s fun k => dataAddress_lt_of_lt_bytesInside
    have haddr : t.dataAddress (bytesInside s) = s.dataAddress (bytesInside s) :=
      dataAddress_of_index (hframe .index (by simp)) _
    have hstop := memRead_outside t (memSize_le_dataAddress_bytesInside s)
    refine ⟨_, stopsWith_raise (forEach_raises hm ht ?_) hframe, hregs⟩
    rw [haddr, hstop, andThen_raise]

/-! ## Draws (R96 to R99) -/

theorem exec_drw (x y : Reg) (n : Nibble) (s : State) :
    exec (.drw x y n) s = andThen (forEach n.toNat 0 (drawRow (s.getV x) (s.getV y)) (s, false)) fun p =>
      .next (p.1.setV regVF (flagByte p.2)) := rfl

/-- A row whose byte is outside memory raises and plots nothing. -/
theorem drawRow_outside {ox oy : Byte} {r : Nat} {p : State × Bool} (h : memSize ≤ p.1.dataAddress r) :
    drawRow ox oy r p = raise (.addressOutOfBounds (p.1.dataAddress r) memSize) p.1 := by
  rw [drawRow, memRead_outside _ h, andThen_raise]

/-- Settles O36: all rows are drawn, and VF takes their collision flag. -/
theorem drawXorsWrappedSprite : Obligations.DrawXorsWrappedSprite := by
  refine ⟨rowDecodes_opcodeRow (.drw 0 0 0), fun x y n s hin => ?_⟩
  obtain ⟨t, c, hrows, hscreen, hcollision, hframe⟩ := drawRows_inside x y n.toNat (Nat.le_of_lt n.isLt) s hin
  refine ⟨t.setV regVF (flagByte c), ?runs, hscreen, fun hhit => ?hit, fun hno => ?noHit, ?frame⟩
  case runs => rw [exec_drw, hrows, andThen_next]
  case hit => rw [State.getV_setV_same, hcollision.2 hhit]; rfl
  case noHit => rw [State.getV_setV_same, Bool.eq_false_iff.2 fun hc => hno (hcollision.1 hc)]; rfl
  case frame =>
    exact changesOnly_trans (changesOnly_mono (fun _ => .inl) hframe)
      (changesOnly_mono (fun _ => .inr) (changesOnly_setV regVF _ t))

/-- Settles O37: the loop stops at the first row outside memory, before VF is written. -/
theorem drawOutsideMemoryKeepsEarlierRows : Obligations.DrawOutsideMemoryKeepsEarlierRows := by
  intro x y n s r hr hbefore hout
  obtain ⟨t, c, hrows, hscreen, -, hframe⟩ := drawRows_inside x y r (by omega) s hbefore
  have haddr : t.dataAddress r = s.dataAddress r := dataAddress_of_index (hframe .index (by simp)) r
  have hrow : drawRow (s.getV x) (s.getV y) r (t, c) = raise (.addressOutOfBounds (s.dataAddress r) memSize) t := by
    rw [drawRow_outside (haddr.symm ▸ hout), haddr]
  refine ⟨_, stopsWith_raise ?stops hframe, hscreen⟩
  case stops => rw [exec_drw, forEach_raises hr hrows hrow, andThen_raise]

end Sys2Proof.Machine
end

section
/-! What every instruction may change and how a step can stop (`spec/10_state.md`, `spec/60_exceptions.md` R108 to R120):
the frames, the recorded errors and the bound on PC. -/

namespace Sys2Proof.Machine

/-! ## Frames -/

/-- An outcome answers or stops with an error, and in both cases changes only the named parts, and the fault status where
it stops. -/
def framed (parts : Part → Prop) (s : State) (r : Result State) : Prop :=
  (∃ t, r = .next t ∧ changesOnly parts s t) ∨ ∃ e t, stopsWith r e parts s t

theorem framed_next {parts : Part → Prop} {s t : State} {r : Result State} (hr : r = .next t)
    (h : changesOnly parts s t) : framed parts s r :=
  .inl ⟨t, hr, h⟩

theorem framed_raise {s : State} {r : Result State} {e : Error} (parts : Part → Prop) (hr : r = raise e s) :
    framed parts s r :=
  .inr ⟨e, _, stopsWith_raise hr (changesOnly_refl parts s)⟩

theorem framed_stopsWith {parts fewer : Part → Prop} {s t : State} {r : Result State} {e : Error}
    (hsub : ∀ p, fewer p → parts p) (h : stopsWith r e fewer s t) : framed parts s r := by
  obtain ⟨hr, hfault, hframe⟩ := h
  exact .inr ⟨e, t, hr, hfault, changesOnly_mono (fun p => Or.imp_left (hsub p)) hframe⟩

/-- A key test that goes on with a skip changes PC alone (R101, R102). -/
theorem framed_withKey (x : Reg) (s : State) (c : Bool → Bool) :
    framed (· = .counter) s (withKey x s fun pressed => .next (skipIf (c pressed) s)) := by
  rcases Nat.lt_or_ge (s.getV x).toNat 16 with h | h
  · exact framed_next (withKey_inside _ h) (changesOnly_skipIf _ s)
  · exact framed_raise _ (withKey_outside _ h)

/-- Every instruction answers or stops within the parts its rule names. -/
theorem exec_framed (i : Instr) (s : State) : framed (mayWrite i s) s (exec i s) := by
  cases i with
  | cls => exact framed_next rfl (changesOnly_withFramebuffer s _)
  | ret =>
    obtain ⟨h, -⟩ | ⟨rest, v, h, -⟩ := pop_cases s
    · exact framed_raise _ (exec_ret_empty h)
    · exact framed_next (exec_ret_append h) (changesOnly_withStackPc s _ _)
  | call nnn =>
    rcases Nat.lt_or_ge s.stack.length stackMaxDepth with h | h
    · exact framed_next (exec_call_free nnn h) (changesOnly_withStackPc s _ _)
    · exact framed_raise _ (exec_call_full nnn h)
  | jp _ | jpV0 _ => exact framed_next rfl (changesOnly_withPc s _)
  | seImm _ _ | sneImm _ _ | seReg _ _ | sneReg _ _ => exact framed_next rfl (changesOnly_skipIf _ s)
  | ldImm x _ | addImm x _ | ldReg x _ | or x _ | and x _ | xor x _ | ldVxDt x =>
    exact framed_next rfl (changesOnly_setV x _ s)
  | addReg x _ | sub x _ | shr x _ | subn x _ | shl x _ =>
    exact framed_next rfl (changesOnly_writeResultAndFlag x _ _ s)
  | ldI _ | ldFVx _ => exact framed_next rfl (changesOnly_withIndex s _)
  | addIVx x =>
    rcases Nat.lt_or_ge 0xFFFF (s.i.toNat + (s.getV x).toNat) with h | h
    · exact framed_raise _ (exec_addIVx_overflows h)
    · exact framed_next (exec_addIVx_fits h) (changesOnly_withIndex s _)
  | rnd x _ => exact framed_next rfl (changesOnly_draw_setV s x _)
  | ldDtVx _ => exact framed_next rfl (changesOnly_withDt s _)
  | ldStVx _ => exact framed_next rfl (changesOnly_withSt s _)
  | skp x => exact framed_withKey x s id
  | sknp x => exact framed_withKey x s not
  | ldVxK x =>
    by_cases h : ∃ k, s.key k = true
    · obtain ⟨k, -, hexec⟩ := exec_ldVxK_takes x h
      exact framed_next hexec (changesOnly_mono (fun _ => Or.imp_right .inl) (changesOnly_draw_setV s x _))
    · simp only [not_exists, Bool.not_eq_true] at h
      exact framed_next (exec_ldVxK_waits h) (changesOnly_mono (fun _ => .inr ∘ .inr) (changesOnly_withPc s _))
  | drw x y n =>
    rcases Nat.lt_or_ge (bytesInside s) n.toNat with h | h
    · obtain ⟨t, hstop, -⟩ := drawOutsideMemoryKeepsEarlierRows x y n s (bytesInside s) h
        (fun _ => dataAddress_lt_of_lt_bytesInside) (memSize_le_dataAddress_bytesInside s)
      exact framed_stopsWith (fun _ => .inl) hstop
    · obtain ⟨t, hexec, -, -, -, hframe⟩ := drawXorsWrappedSprite.2 x y n s fun r hr =>
        dataAddress_lt_of_lt_bytesInside (hr.trans_le h)
      exact framed_next hexec hframe
  | ldBVx x =>
    rcases Nat.lt_or_ge (bytesInside s) 3 with h | h
    · obtain ⟨t, hstop, -⟩ := (decimalDigitsStored.2 x s).2 (bytesInside s) h
        (fun _ => dataAddress_lt_of_lt_bytesInside) (memSize_le_dataAddress_bytesInside s)
      exact framed_stopsWith (fun p ⟨k, hk, hp⟩ => ⟨k, hk.trans h, hp⟩) hstop
    · obtain ⟨t, hexec, -, hframe⟩ := (decimalDigitsStored.2 x s).1 (dataAddress_lt_of_lt_bytesInside h)
      exact framed_next hexec hframe
  | ldMemVx x =>
    rcases Nat.lt_or_ge (s.dataAddress x.val) memSize with h | h
    · obtain ⟨t, hexec, -, hframe⟩ := (registersStored.2 x s).1 h
      exact framed_next hexec (changesOnly_mono (fun p ⟨r, hr, hp⟩ => ⟨r.val, hr, hp⟩) hframe)
    · obtain ⟨t, hstop, -⟩ := (registersStored.2 x s).2 h
      have hx : bytesInside s ≤ x.val := Nat.not_lt.1 fun hlt => Nat.not_lt.2 h (dataAddress_lt_of_lt_bytesInside hlt)
      exact framed_stopsWith (fun p ⟨r, hr, hp⟩ => ⟨r.val, (hr.trans_le hx).le, hp⟩) hstop
  | ldVxMem x =>
    rcases Nat.lt_or_ge (s.dataAddress x.val) memSize with h | h
    · obtain ⟨t, hexec, -, hframe⟩ := (registersLoaded.2 x s).1 h
      exact framed_next hexec hframe
    · obtain ⟨t, hstop, -⟩ := (registersLoaded.2 x s).2 h
      have hx : bytesInside s ≤ x.val := Nat.not_lt.1 fun hlt => Nat.not_lt.2 h (dataAddress_lt_of_lt_bytesInside hlt)
      exact framed_stopsWith (fun p ⟨r, hr, hp⟩ => ⟨r, Fin.le_def.2 (hr.trans_le hx).le, hp⟩) hstop

/-- Settles O42: the frame of the one outcome the instruction has. -/
theorem everyInstructionKeepsItsFrame : Obligations.EveryInstructionKeepsItsFrame := by
  intro i s
  obtain ⟨u, hexec, hframe⟩ | ⟨e', u, hexec, -, hframe⟩ := exec_framed i s <;> rw [hexec]
  · exact ⟨by rintro t ⟨⟩; exact hframe, nofun⟩
  · exact ⟨nofun, by rintro e t ⟨⟩; exact hframe⟩

theorem exec_ne_refused (i : Instr) (s : State) (r : Refusal) : exec i s ≠ .refused r := by
  obtain ⟨u, hexec, -⟩ | ⟨e, u, hexec, -⟩ := exec_framed i s <;> rw [hexec] <;> nofun

/-- Settles O43: the kinds are those of the operations the instruction is built with, and every outcome is framed. -/
theorem everyInstructionRaisesOnlyItsKind : Obligations.EveryInstructionRaisesOnlyItsKind :=
  fun i s => ⟨exec_raisesOnly i s, exec_ne_refused i s⟩

/-! ## The fault status (R108, R120) -/

/-- An outcome leaves no fault where it goes on and its own error where it stops. -/
def faultRecorded : Result State → Prop
  | .next t => t.fault = none
  | .fault (.raised e t) => t.fault = some e
  | .refused _ => True

theorem faultRecorded_andThen {r : Result State} {f : State → Result State} (hr : faultRecorded r)
    (hf : ∀ t, t.fault = none → faultRecorded (f t)) : faultRecorded (andThen r f) := by
  cases r with
  | next t => exact hf t hr
  | fault e => cases e; exact hr
  | refused _ => trivial

/-- No rule of an instruction names the fault status. -/
theorem not_mayWrite_faultStatus (i : Instr) (s : State) : ¬ mayWrite i s .faultStatus := by
  cases i <;> simp [mayWrite]

theorem exec_faultRecorded (i : Instr) {s : State} (h : s.fault = none) : faultRecorded (exec i s) := by
  obtain ⟨t, hexec, hframe⟩ | ⟨e, t, hexec, hfault, -⟩ := exec_framed i s <;> rw [hexec]
  · exact (hframe .faultStatus (not_mayWrite_faultStatus i s)).trans h
  · exact hfault

theorem step_faultRecorded (s : State) : faultRecorded (step s) := by
  obtain ⟨_, -, h⟩ | ⟨-, -, h⟩ | ⟨-, -, -, h⟩ | ⟨i, hf, -, -, h⟩ := step_cases s <;> rw [h]
  · trivial
  · rfl
  · rfl
  · exact exec_faultRecorded i hf

theorem runSteps_faultRecorded (count : Nat) {s : State} (h : s.fault = none) : faultRecorded (runSteps count s) := by
  induction count generalizing s with
  | zero => exact h
  | succ n ih => exact faultRecorded_andThen (step_faultRecorded s) fun _ => ih

theorem step_faulted {s : State} {e : Error} (h : s.fault = some e) : step s = .refused (.stepAfterFault e) := by
  rw [step, fetchInstr_faulted h, andThen_refused]

theorem tick_faulted {s : State} {e : Error} (h : s.fault = some e) : tick s = .refused (.stepAfterFault e) := by
  simp only [tick, h]

/-- A tick of an unfaulted machine: its steps, then the timers (R109). -/
theorem tick_unfaulted {s : State} (h : s.fault = none) :
    tick s = andThen (runSteps s.config.stepsPerTick s) fun t => .next (decrementTimers t) := by
  simp only [tick, h]

theorem tick_faultRecorded (s : State) : faultRecorded (tick s) := by
  rcases Option.eq_none_or_eq_some s.fault with h | ⟨e, h⟩
  · rw [tick_unfaulted h]
    exact faultRecorded_andThen (runSteps_faultRecorded _ h) fun _ ht => ht
  · rw [tick_faulted h]
    trivial

/-- Settles O10: a fault refuses both calls, and what an instruction's frame leaves is recorded through step and tick. -/
theorem faultStatusIsSticky : Obligations.FaultStatusIsSticky := by
  refine ⟨fun s e h => ⟨step_faulted h, tick_faulted h⟩, fun s t h => ?_, fun s t h => ?_, fun s e t h => ?_,
    fun s e t h => ?_⟩
  · exact (h ▸ step_faultRecorded s : faultRecorded (.next t))
  · exact (h ▸ tick_faultRecorded s : faultRecorded (.next t))
  · exact (h ▸ step_faultRecorded s : faultRecorded (.fault (.raised e t)))
  · exact (h ▸ tick_faultRecorded s : faultRecorded (.fault (.raised e t)))

/-! ## Fetch and step (R42, R108, R116) -/

/-- Settles O7: the fetch raises before it changes anything. -/
theorem fetchOutsideMemoryRaises : Obligations.FetchOutsideMemoryRaises :=
  fun _ h => stopsWith_raise_here (fetch_outside h)

/-- Settles O8: a step is the fetch, then the decoder on the two bytes at PC, then the instruction. -/
theorem stepRunsDecodedInstruction : Obligations.StepRunsDecodedInstruction := by
  intro s hf
  refine ⟨fun r hr => ?fetchStops, fun h => ⟨fun i hd _ => step_ok hf h (decode_two_eq_ok.1 hd), fun e hd => ?rejected⟩⟩
  case fetchStops => simp only [step, fetchInstr, hf, hr, andThen_fault]
  case rejected =>
    exact ⟨_, _, stopsWith_raise (step_unassigned hf h (decode_two_eq_error.1 hd)) (changesOnly_withPc s _)⟩

/-! ## The bound on PC (R17) -/

theorem skipIf_pc_le (c : Bool) (s : State) : (skipIf c s).pc.toNat ≤ s.pc.toNat + 2 := by
  rw [skipIf_pc_toNat]
  split
  · exact Nat.mod_le _ _
  · exact Nat.le_add_right _ _

theorem withKey_eq_next {x : Reg} {s t : State} {f : Bool → Result State} (h : withKey x s f = .next t) :
    ∃ pressed, f pressed = .next t := by
  rcases Nat.lt_or_ge (s.getV x).toNat 16 with hx | hx
  · exact ⟨_, (withKey_inside f hx).symm.trans h⟩
  · exact absurd ((withKey_outside f hx).symm.trans h) (raise_ne_next _ _ _)

/-- A call that answers pushed PC and jumped. -/
theorem exec_call_eq_next {nnn : Addr12} {s t : State} (h : exec (.call nnn) s = .next t) :
    t = { s with stack := s.stack ++ [s.pc], pc := zextAddr nnn } := by
  rcases Nat.lt_or_ge s.stack.length stackMaxDepth with hs | hs
  · rw [exec_call_free nnn hs] at h
    exact (Host.Outcome.next.inj h).symm
  · rw [exec_call_full nnn hs] at h
    exact absurd h (raise_ne_next _ _ _)

/-- A return that answers jumped to the last entry and took it off. -/
theorem exec_ret_eq_next {s t : State} (h : exec .ret s = .next t) :
    ∃ rest v, s.stack = rest ++ [v] ∧ t = { s with stack := rest, pc := v } := by
  obtain ⟨hs, -⟩ | ⟨rest, v, hs, -⟩ := pop_cases s
  · rw [exec_ret_empty hs] at h
    exact absurd h (raise_ne_next _ _ _)
  · rw [exec_ret_append hs] at h
    exact ⟨rest, v, hs, (Host.Outcome.next.inj h).symm⟩

/-- Calls alone push, and what they push is PC. -/
theorem exec_keeps_returnsBounded {i : Instr} {s t : State} (hpc : s.pc.toNat ≤ memSize) (hret : s.returnsBounded)
    (h : exec i s = .next t) : t.returnsBounded := by
  have hframe := (everyInstructionKeepsItsFrame i s).1 t h
  cases i with
  | call nnn =>
    obtain rfl := exec_call_eq_next h
    intro r hr
    rcases List.mem_append.1 hr with hr | hr
    · exact hret r hr
    · exact List.mem_singleton.1 hr ▸ hpc
  | ret =>
    obtain ⟨rest, v, hs, rfl⟩ := exec_ret_eq_next h
    exact fun r hr => hret r (hs ▸ List.mem_append_left _ hr)
  | _ =>
    have hstack : t.stack = s.stack := hframe .stack (by simp [mayWrite])
    exact fun r hr => hret r (hstack ▸ hr)

/-- Where PC points past a word inside memory, no instruction takes it beyond a jump to 0xFFF with V0 = 0xFF. -/
theorem exec_bounds_pc {i : Instr} {s t : State} (hlow : 2 ≤ s.pc.toNat) (hpc : s.pc.toNat ≤ memSize)
    (hret : s.returnsBounded) (h : exec i s = .next t) : t.pc.toNat ≤ 0x10FE := by
  have hframe := (everyInstructionKeepsItsFrame i s).1 t h
  have hskip : ∀ c, (skipIf c s).pc.toNat ≤ 0x10FE := fun c => (skipIf_pc_le c s).trans (by simp only [memSize] at hpc; omega)
  have hjump : ∀ nnn : Addr12, (zextAddr nnn).toNat ≤ 0xFFF := fun nnn => by rw [zextAddr_toNat]; omega
  cases i with
  | jp nnn => cases h; exact (hjump nnn).trans (by decide)
  | call nnn => obtain rfl := exec_call_eq_next h; exact (hjump nnn).trans (by decide)
  | ret =>
    obtain ⟨rest, v, hs, rfl⟩ := exec_ret_eq_next h
    exact (hret v (by simp [hs])).trans (by decide)
  | jpV0 nnn =>
    cases h
    have hsum := zextAddr_add_zextByte_toNat nnn (s.getV regV0)
    simp only [hsum]
    omega
  | seImm _ _ | sneImm _ _ | seReg _ _ | sneReg _ _ => cases h; exact hskip _
  | skp x =>
    obtain ⟨pressed, hnext⟩ := withKey_eq_next ((exec_skp x s).symm.trans h)
    cases hnext
    exact hskip _
  | sknp x =>
    obtain ⟨pressed, hnext⟩ := withKey_eq_next ((exec_sknp x s).symm.trans h)
    cases hnext
    exact hskip _
  | ldVxK x =>
    by_cases hk : ∃ k, s.key k = true
    · obtain ⟨k, -, hexec⟩ := exec_ldVxK_takes x hk
      cases hexec.symm.trans h
      exact hpc.trans (by decide)
    · simp only [not_exists, Bool.not_eq_true] at hk
      cases (exec_ldVxK_waits hk).symm.trans h
      rw [pc_sub_two_toNat]
      simp only [memSize] at hpc
      omega
  | _ =>
    have hsame : t.pc = s.pc := hframe .counter (by simp [mayWrite])
    exact hsame ▸ hpc.trans (by decide)

/-- Settles O49: the fetch leaves PC between 2 and 4096, and the instruction's own bounds follow. -/
theorem stepBoundsCounter : Obligations.StepBoundsCounter := by
  intro s t hret h
  obtain ⟨i, -, hin, -, hexec⟩ := step_eq_next h
  have hpc : (s.pc + 2#16).toNat = s.pc.toNat + 2 := pc_add_two_toNat hin
  have hlow : 2 ≤ (s.pc + 2#16).toNat := hpc.symm ▸ Nat.le_add_left ..
  have hhigh : (s.pc + 2#16).toNat ≤ memSize := hpc.symm ▸ hin
  exact ⟨exec_bounds_pc (s := { s with pc := s.pc + 2#16 }) hlow hhigh hret hexec,
    exec_keeps_returnsBounded (s := { s with pc := s.pc + 2#16 }) hhigh hret hexec⟩

end Sys2Proof.Machine
end

section
/-! Invariants: what every operation of an instruction keeps, every step and every call of the host keeps
(`spec/10_state.md` R19, R23, `spec/20_memory.md` R33, `spec/60_exceptions.md` section 6). -/

namespace Sys2Proof.Machine

/-! ## Outcomes that leave a property -/

/-- An outcome's value satisfies `Q`, and the state it leaves where it stops with an error satisfies `P`. -/
def leavesWith {α : Type} (P : State → Prop) (Q : α → Prop) : Result α → Prop
  | .next a => Q a
  | .fault (.raised _ t) => P t
  | .refused _ => True

theorem leaves_iff_leavesWith {P : State → Prop} {r : Result State} : leaves P r ↔ leavesWith P P r := by
  cases r with
  | fault e => cases e; rfl
  | _ => rfl

theorem leavesWith_next {α : Type} {P : State → Prop} {Q : α → Prop} {a : α} (ha : Q a) : leavesWith P Q (.next a) := ha

theorem leavesWith_andThen {α β : Type} {P : State → Prop} {Q : α → Prop} {R : β → Prop} {r : Result α}
    {f : α → Result β} (hr : leavesWith P Q r) (hf : ∀ a, Q a → leavesWith P R (f a)) :
    leavesWith P R (andThen r f) := by
  cases r with
  | next a => exact hf a hr
  | fault e => cases e; exact hr
  | refused _ => trivial

/-- What a loop's body keeps, the loop leaves, whether it goes on or stops. -/
theorem leavesWith_forEach {α : Type} {P : State → Prop} {Q : α → Prop} {body : Nat → α → Result α}
    (hbody : ∀ k a, Q a → leavesWith P Q (body k a)) (count first : Nat) {a : α} (ha : Q a) :
    leavesWith P Q (forEach count first body a) := by
  induction count generalizing first a with
  | zero => exact ha
  | succ n ih => exact leavesWith_andThen (hbody first a ha) fun b hb => ih (first + 1) hb

theorem leaves_andThen {P : State → Prop} {r : Result State} {f : State → Result State} (hr : leaves P r)
    (hf : ∀ t, P t → leaves P (f t)) : leaves P (andThen r f) :=
  leaves_iff_leavesWith.2 (leavesWith_andThen (leaves_iff_leavesWith.1 hr) fun t ht => leaves_iff_leavesWith.1 (hf t ht))

theorem leaves_mono {P Q : State → Prop} {r : Result State} (hsub : ∀ t, P t → Q t) (h : leaves P r) : leaves Q r := by
  cases r with
  | next t => exact hsub t h
  | fault e => cases e; exact hsub _ h
  | refused _ => trivial

/-! ## What the operations keep, a step keeps -/

/-- A property that every write of an instruction keeps: of registers, timers, screen, fault status and count of draws,
of a byte inside memory, of a stack entry pushed with room for it or popped. -/
structure KeptByOps (P : State → Prop) : Prop where
  fields : ∀ s, P s → ∀ v i pc dt st fb fault draws,
    P { s with v := v, i := i, pc := pc, dt := dt, st := st, fb := fb, fault := fault, draws := draws }
  byte : ∀ s a b, a < memSize → P s → P (s.setByte a b)
  push : ∀ s v, s.stack.length < stackMaxDepth → P s → P { s with stack := s.stack ++ [v] }
  pop : ∀ s rest v, s.stack = rest ++ [v] → P s → P { s with stack := rest }

section
variable {P : State → Prop} (hP : KeptByOps P)
include hP

theorem KeptByOps.raise {α : Type} {Q : α → Prop} (e : Error) {s : State} (hs : P s) :
    leavesWith P Q (raise e s) :=
  hP.fields s hs _ _ _ _ _ _ (some e) _

theorem KeptByOps.setV {s : State} (hs : P s) (x : Reg) (b : Byte) : P (s.setV x b) :=
  hP.fields s hs (s.v.set x b) _ _ _ _ _ _ _

theorem KeptByOps.skipIf {s : State} (hs : P s) (c : Bool) : P (skipIf c s) := by
  rw [skipIf_eq]
  exact hP.fields s hs ..

theorem KeptByOps.writeResultAndFlag {s : State} (hs : P s) (x : Reg) (r : Byte) (f : Bool) :
    P (writeResultAndFlag x r f s) := by
  rw [writeResultAndFlag_eq]
  exact hP.fields s hs ..

theorem KeptByOps.memRead {s : State} (hs : P s) (a : Nat) : leavesWith P (fun _ => True) (memRead a s) := by
  rcases Nat.lt_or_ge a memSize with h | h
  · rw [memRead_inside s h]
    trivial
  · rw [memRead_outside s h]
    exact hP.raise _ hs

theorem KeptByOps.memWrite {s : State} (hs : P s) (a : Nat) (b : Byte) : leavesWith P P (memWrite a b s) := by
  rcases Nat.lt_or_ge a memSize with h | h
  · rw [memWrite_inside b s h]
    exact hP.byte s a b h hs
  · rw [memWrite_outside b s h]
    exact hP.raise _ hs

theorem KeptByOps.withKey {s : State} (hs : P s) (x : Reg) (c : Bool → Bool) :
    leavesWith P P (withKey x s fun pressed => .next (Machine.skipIf (c pressed) s)) := by
  rcases Nat.lt_or_ge (s.getV x).toNat 16 with h | h
  · rw [withKey_inside _ h]
    exact hP.skipIf hs _
  · rw [withKey_outside _ h]
    exact hP.raise _ hs

/-- One row of a draw changes the pixels, or raises. -/
theorem KeptByOps.drawRow (ox oy : Byte) (r : Nat) {p : State × Bool} (hp : P p.1) :
    leavesWith P (fun q => P q.1) (drawRow ox oy r p) :=
  leavesWith_andThen (hP.memRead hp _) fun _ _ => hP.fields p.1 hp ..

theorem KeptByOps.exec {s : State} (hs : P s) (i : Instr) : leaves P (exec i s) := by
  rw [leaves_iff_leavesWith]
  cases i with
  | ret =>
    obtain ⟨h, -⟩ | ⟨rest, v, h, -⟩ := pop_cases s
    · rw [exec_ret_empty h]
      exact hP.raise _ hs
    · rw [exec_ret_append h]
      exact hP.fields _ (hP.pop s rest v h hs) _ _ v _ _ _ _ _
  | call nnn =>
    rcases Nat.lt_or_ge s.stack.length stackMaxDepth with h | h
    · rw [exec_call_free nnn h]
      exact hP.fields _ (hP.push s s.pc h hs) _ _ (zextAddr nnn) _ _ _ _ _
    · rw [exec_call_full nnn h]
      exact hP.raise _ hs
  | addReg _ _ | sub _ _ | shr _ _ | subn _ _ | shl _ _ => exact hP.writeResultAndFlag hs _ _ _
  | seImm _ _ | sneImm _ _ | seReg _ _ | sneReg _ _ => exact hP.skipIf hs _
  | skp x => exact hP.withKey hs x id
  | sknp x => exact hP.withKey hs x not
  | ldVxK x =>
    by_cases h : ∃ k, s.key k = true
    · obtain ⟨k, -, hexec⟩ := exec_ldVxK_takes x h
      rw [hexec]
      exact hP.setV (hP.fields s hs _ _ _ _ _ _ _ (s.draws + 1)) x _
    · simp only [not_exists, Bool.not_eq_true] at h
      rw [exec_ldVxK_waits h]
      exact hP.fields s hs ..
  | addIVx x =>
    rcases Nat.lt_or_ge 0xFFFF (s.i.toNat + (s.getV x).toNat) with h | h
    · rw [exec_addIVx_overflows h]
      exact hP.raise _ hs
    · rw [exec_addIVx_fits h]
      exact hP.fields s hs ..
  | drw x y n =>
    exact leavesWith_andThen (leavesWith_forEach (Q := fun p => P p.1) (fun r _ hp => hP.drawRow _ _ r hp) _ _ hs)
      fun p hp => leavesWith_next (hP.setV (s := p.1) hp _ _)
  | ldBVx x =>
    rw [exec_ldBVx]
    exact leavesWith_forEach (fun _ _ ht => hP.memWrite ht _ _) _ _ hs
  | ldMemVx x =>
    rw [exec_ldMemVx]
    exact leavesWith_forEach (fun _ _ ht => hP.memWrite ht _ _) _ _ hs
  | ldVxMem x =>
    rw [exec_ldVxMem]
    exact leavesWith_forEach
      (fun _ _ ht => leavesWith_andThen (hP.memRead ht _) fun b _ => leavesWith_next (hP.setV ht _ b)) _ _ hs
  | _ => exact hP.fields s hs ..

theorem KeptByOps.step {s : State} (hs : P s) : leaves P (step s) := by
  obtain ⟨_, -, h⟩ | ⟨-, -, h⟩ | ⟨-, -, -, h⟩ | ⟨i, -, -, -, h⟩ := step_cases s <;> rw [h]
  · trivial
  · exact hP.fields s hs ..
  · exact hP.fields s hs ..
  · exact hP.exec (hP.fields s hs _ _ (s.pc + 2#16) _ _ _ _ _) i

theorem KeptByOps.tick {s : State} (hs : P s) : leaves P (tick s) := by
  rcases Option.eq_none_or_eq_some s.fault with h | ⟨e, h⟩
  · rw [tick_unfaulted h]
    exact leaves_andThen (leaves_runSteps (fun _ => hP.step) _ s hs) fun t ht => hP.fields t ht ..
  · rw [tick_faulted h]
    trivial

end

/-! ## The invariants -/

theorem keptByOps_wf : KeptByOps State.wf where
  fields _ hs _ _ _ _ _ _ _ _ := hs
  byte _ _ b ha := fun ⟨hmem, hstack, hfit⟩ => ⟨Memory.wf_write b ha hmem, hstack, hfit⟩
  push _ _ hfree := fun ⟨hmem, _, hfit⟩ => ⟨hmem, by rw [List.length_append]; exact hfree, hfit⟩
  pop _ rest _ hs := fun ⟨hmem, hstack, hfit⟩ =>
    ⟨hmem, (List.sublist_append_left rest _).length_le.trans (hs ▸ hstack), hfit⟩

/-- Settles O45: every operation of an instruction keeps the invariant. -/
theorem stepKeepsWellFormedState : Obligations.StepKeepsWellFormedState := fun _ => keptByOps_wf.step

/-- Settles O46: steps and ticks keep it as the operations do; a reset and a load write only an image that fits. -/
theorem hostCallsKeepWellFormedState : Obligations.HostCallsKeepWellFormedState := by
  intro c s hs
  cases c with
  | step => exact keptByOps_wf.step hs
  | tick => exact keptByOps_wf.tick hs
  | reset => exact ⟨Memory.wf_resetMemory s.config s.programImage, Nat.zero_le _, hs.2.2⟩
  | setInput keys => exact hs
  | loadProgram bytes =>
    by_cases hfit : blockFits s.config.programBase.toNat bytes.length = true
    · rw [hostCall, loadProgram_fits hfit]
      exact ⟨Memory.wf_writeBlock hfit hs.1, hs.2.1, hfit⟩
    · rw [hostCall, loadProgram_refused hfit]
      trivial

theorem keptByOps_stackDepth : KeptByOps fun s => s.stack.length ≤ 15 where
  fields _ hs _ _ _ _ _ _ _ _ := hs
  byte _ _ _ _ hs := hs
  push _ _ hfree _ := by rw [List.length_append]; exact hfree
  pop _ rest _ hs hdepth := (List.sublist_append_left rest _).length_le.trans (hs ▸ hdepth)

/-- Settles O48: a push is accepted only below 15, a reset empties the stack and the other calls leave it. -/
theorem stackDepthAtMostFifteen : Obligations.StackDepthAtMostFifteen := by
  intro c s hs
  cases c with
  | step => exact keptByOps_stackDepth.step hs
  | tick => exact keptByOps_stackDepth.tick hs
  | reset => exact Nat.zero_le _
  | setInput keys => exact hs
  | loadProgram bytes =>
    by_cases hfit : blockFits s.config.programBase.toNat bytes.length = true
    · rw [hostCall, loadProgram_fits hfit]
      exact hs
    · rw [hostCall, loadProgram_refused hfit]
      trivial

/-- No operation of an instruction writes what the host owns. -/
theorem keptByOps_hostParts (s : State) :
    KeptByOps fun t => t.keys = s.keys ∧ t.programImage = s.programImage ∧ t.config = s.config where
  fields _ ht _ _ _ _ _ _ _ _ := ht
  byte _ _ _ _ ht := ht
  push _ _ _ ht := ht
  pop _ _ _ _ ht := ht

/-- A change of the keypad changes no other part. -/
theorem changesOnly_setInput (keys : Keypad) (s : State) : changesOnly (· = .keypad) s (setInput keys s) := by
  intro p hp
  cases p with
  | keypad => exact absurd rfl hp
  | _ => rfl

/-- Settles O50: the host's parts are kept as an invariant, and key input is one write of the keypad. -/
theorem keypadIsTheHosts : Obligations.KeypadIsTheHosts :=
  ⟨fun s => (keptByOps_hostParts s).step ⟨rfl, rfl, rfl⟩, fun s => (keptByOps_hostParts s).tick ⟨rfl, rfl, rfl⟩,
    fun keys s => ⟨fun _ => rfl, changesOnly_setInput keys s⟩⟩

/-- A reset reads the host's parts alone, but for the count of draws. -/
theorem hostReset_of_hostParts {s t : State}
    (h : t.keys = s.keys ∧ t.programImage = s.programImage ∧ t.config = s.config) :
    { hostReset t with draws := s.draws } = hostReset s := by
  obtain ⟨hkeys, himage, hconfig⟩ := h
  simp only [hostReset, hkeys, himage, hconfig]

/-- Settles O58: a step keeps all that a reset reads. -/
theorem resetUndoesSteps : Obligations.ResetUndoesSteps :=
  fun s => leaves_mono (fun _ => hostReset_of_hostParts) (keypadIsTheHosts.1 s)

end Sys2Proof.Machine
end

section
/-! What no instruction reads: ST and the program image (`spec/10_state.md` sections 5 and 8). -/

namespace Sys2Proof.Machine

/-! ## Outcomes with their values and states changed -/

/-- The outcome with its value changed by `g`, and the state it leaves where it stops changed by `f`. -/
def mapResult {α β : Type} (g : α → β) (f : State → State) : Result α → Result β
  | .next a => .next (g a)
  | .fault (.raised e t) => .fault (.raised e (f t))
  | .refused r => .refused r

theorem mapOutcome_eq_mapResult (f : State → State) (r : Result State) : mapOutcome f r = mapResult f f r := by
  cases r with
  | fault e => cases e; rfl
  | _ => rfl

theorem mapResult_andThen {α β γ δ : Type} {g : α → β} {g' : γ → δ} {f : State → State} {r : Result α}
    {k : α → Result γ} {k' : β → Result δ} (h : ∀ a, k' (g a) = mapResult g' f (k a)) :
    andThen (mapResult g f r) k' = mapResult g' f (andThen r k) := by
  cases r with
  | next a => exact h a
  | fault e => cases e; rfl
  | refused _ => rfl

theorem mapResult_forEach {α β : Type} {g : α → β} {f : State → State} {body : Nat → α → Result α}
    {body' : Nat → β → Result β} (h : ∀ k a, body' k (g a) = mapResult g f (body k a)) (count first : Nat) (a : α) :
    forEach count first body' (g a) = mapResult g f (forEach count first body a) := by
  induction count generalizing first a with
  | zero => rfl
  | succ n ih => rw [forEach_succ, forEach_succ, h, mapResult_andThen (ih (first + 1))]

/-! ## Changing the parts that are not read -/

/-- The state with ST and the program image replaced where a new value is given. -/
def withUnread (st? : Option Byte) (image? : Option (List Byte)) (s : State) : State :=
  { s with st := st?.getD s.st, programImage := image?.getD s.programImage }

section
variable (st? : Option Byte) (image? : Option (List Byte))

theorem memRead_withUnread (a : Nat) (s : State) :
    memRead a (withUnread st? image? s) = mapResult id (withUnread st? image?) (memRead a s) := by
  unfold memRead
  split <;> rfl

theorem memWrite_withUnread (a : Nat) (b : Byte) (s : State) :
    memWrite a b (withUnread st? image? s) = mapResult (withUnread st? image?) (withUnread st? image?) (memWrite a b s) := by
  unfold memWrite
  split <;> rfl

theorem skipIf_withUnread (c : Bool) (s : State) :
    skipIf c (withUnread st? image? s) = withUnread st? image? (skipIf c s) := by
  cases c <;> rfl

theorem writeResultAndFlag_withUnread (x : Reg) (r : Byte) (f : Bool) (s : State) :
    writeResultAndFlag x r f (withUnread st? image? s) = withUnread st? image? (writeResultAndFlag x r f s) := by
  have hconfig : (withUnread st? image? s).config = s.config := rfl
  unfold writeResultAndFlag
  rw [hconfig]
  split <;> rfl

theorem withKey_withUnread (x : Reg) (c : Bool → Bool) (s : State) :
    withKey x (withUnread st? image? s) (fun pressed => .next (skipIf (c pressed) (withUnread st? image? s))) =
      mapResult (withUnread st? image?) (withUnread st? image?)
        (withKey x s fun pressed => .next (skipIf (c pressed) s)) := by
  rcases Nat.lt_or_ge (s.getV x).toNat 16 with h | h
  · rw [withKey_inside _ h, withKey_inside (s := withUnread st? image? s) _ h, skipIf_withUnread]
    rfl
  · rw [withKey_outside _ h, withKey_outside (s := withUnread st? image? s) _ h]
    rfl

theorem drawRow_withUnread (ox oy : Byte) (r : Nat) (p : State × Bool) :
    drawRow ox oy r (p.map (withUnread st? image?) id) =
      mapResult (Prod.map (withUnread st? image?) id) (withUnread st? image?) (drawRow ox oy r p) :=
  (congrArg (andThen · _) (memRead_withUnread st? image? _ p.1)).trans (mapResult_andThen fun _ => rfl)

theorem storeReg_withUnread (k : Nat) (s : State) :
    storeReg k (withUnread st? image? s) = mapResult (withUnread st? image?) (withUnread st? image?) (storeReg k s) :=
  memWrite_withUnread st? image? _ _ s

theorem loadReg_withUnread (k : Nat) (s : State) :
    loadReg k (withUnread st? image? s) = mapResult (withUnread st? image?) (withUnread st? image?) (loadReg k s) :=
  (congrArg (andThen · _) (memRead_withUnread st? image? _ s)).trans (mapResult_andThen fun _ => rfl)

/-- Every instruction commutes with a change of the program image, and all but Fx18 with one of ST. -/
theorem exec_withUnread (i : Instr) (s : State) (h : st? = none ∨ ∀ x, i ≠ .ldStVx x) :
    exec i (withUnread st? image? s) = mapOutcome (withUnread st? image?) (exec i s) := by
  rw [mapOutcome_eq_mapResult]
  cases i with
  | ret =>
    obtain ⟨hs, -⟩ | ⟨rest, v, hs, -⟩ := pop_cases s
    · rw [exec_ret_empty hs, exec_ret_empty (s := withUnread st? image? s) hs]
      rfl
    · rw [exec_ret_append hs, exec_ret_append (s := withUnread st? image? s) hs]
      rfl
  | call nnn =>
    rcases Nat.lt_or_ge s.stack.length stackMaxDepth with hs | hs
    · rw [exec_call_free nnn hs, exec_call_free (s := withUnread st? image? s) nnn hs]
      rfl
    · rw [exec_call_full nnn hs, exec_call_full (s := withUnread st? image? s) nnn hs]
      rfl
  | addReg _ _ | sub _ _ | shr _ _ | subn _ _ | shl _ _ =>
    exact congrArg Host.Outcome.next (writeResultAndFlag_withUnread st? image? _ _ _ s)
  | seImm _ _ | sneImm _ _ | seReg _ _ | sneReg _ _ =>
    exact congrArg Host.Outcome.next (skipIf_withUnread st? image? _ s)
  | skp x => exact withKey_withUnread st? image? x id s
  | sknp x => exact withKey_withUnread st? image? x not s
  | addIVx x =>
    rcases Nat.lt_or_ge 0xFFFF (s.i.toNat + (s.getV x).toNat) with hi | hi
    · rw [exec_addIVx_overflows hi, exec_addIVx_overflows (s := withUnread st? image? s) hi]
      rfl
    · rw [exec_addIVx_fits hi, exec_addIVx_fits (s := withUnread st? image? s) hi]
      rfl
  | ldVxK x =>
    have hkeys : (withUnread st? image? s).pressedKeys = s.pressedKeys := rfl
    simp only [exec, execLdVxK, hkeys]
    split <;> rfl
  | drw x y n =>
    rw [exec_drw, exec_drw]
    exact (congrArg (andThen · _) (mapResult_forEach (drawRow_withUnread st? image? _ _) _ _ (s, false))).trans
      (mapResult_andThen fun _ => rfl)
  | ldBVx x =>
    rw [exec_ldBVx, exec_ldBVx]
    exact mapResult_forEach (fun _ t => memWrite_withUnread st? image? _ _ t) _ _ s
  | ldMemVx x =>
    rw [exec_ldMemVx, exec_ldMemVx]
    exact mapResult_forEach (storeReg_withUnread st? image?) _ _ s
  | ldVxMem x =>
    rw [exec_ldVxMem, exec_ldVxMem]
    exact mapResult_forEach (loadReg_withUnread st? image?) _ _ s
  | ldStVx x =>
    obtain rfl | hne := h
    · rfl
    · exact absurd rfl (hne x)
  | _ => rfl

end

/-- Settles O51: ST is among the parts no instruction reads, and Fx18 writes it without reading it. -/
theorem soundTimerIsNeverRead : Obligations.SoundTimerIsNeverRead := by
  refine fun i s b => ⟨fun hne => exec_withUnread (some b) none i s (.inr hne), ?_⟩
  rintro x rfl
  rfl

/-- A step commutes with a change of the program image. -/
theorem step_withImage (image : List Byte) (s : State) :
    step (withUnread none (some image) s) = mapOutcome (withUnread none (some image)) (step s) := by
  rcases Option.eq_none_or_eq_some s.fault with hf | ⟨e, hf⟩
  · rcases Nat.lt_or_ge (s.pc.toNat + 1) memSize with h | h
    · cases hd : decodeWord (s.wordAt s.pc.toNat) with
      | ok i =>
        rw [step_ok hf h hd, step_ok (s := withUnread none (some image) s) hf h hd]
        exact exec_withUnread none (some image) i { s with pc := s.pc + 2#16 } (.inl rfl)
      | error e =>
        rw [step_unassigned hf h hd, step_unassigned (s := withUnread none (some image) s) hf h hd]
        rfl
    · rw [step, step, fetchInstr_outside hf h, fetchInstr_outside (s := withUnread none (some image) s) hf h]
      rfl
  · rw [step_faulted hf, step_faulted (s := withUnread none (some image) s) hf]
    rfl

/-- Settles O52: neither the fetch nor an instruction reads the program image. -/
theorem programImageIsInvisible : Obligations.ProgramImageIsInvisible :=
  fun s image => step_withImage image s

end Sys2Proof.Machine
end

section
/-! Ticks, the wait for a key and the end of a run (`spec/60_exceptions.md` R109, R132, `spec/45_timers_keypad.md` R103,
R104). -/

namespace Sys2Proof.Machine

/-! ## Ticks that stop -/

/-- The two instructions that write a timer never stop, so one that stops leaves both. -/
theorem exec_fault_timers {i : Instr} {s t : State} {e : Error} (h : exec i s = .fault (.raised e t)) :
    t.dt = s.dt ∧ t.st = s.st := by
  have hframe := (everyInstructionKeepsItsFrame i s).2 e t h
  cases i with
  | ldDtVx x => cases h
  | ldStVx x => cases h
  | _ => exact ⟨hframe .delayTimer (by simp [mayWrite]), hframe .soundTimer (by simp [mayWrite])⟩

theorem step_fault_timers {s t : State} {e : Error} (h : step s = .fault (.raised e t)) :
    t.dt = s.dt ∧ t.st = s.st := by
  obtain ⟨_, -, hs⟩ | ⟨-, -, hs⟩ | ⟨-, -, -, hs⟩ | ⟨i, -, -, -, hs⟩ := step_cases s <;> rw [hs] at h
  · cases h
  · obtain ⟨-, rfl⟩ := raise_eq_fault.1 h
    exact ⟨rfl, rfl⟩
  · obtain ⟨-, rfl⟩ := raise_eq_fault.1 h
    exact ⟨rfl, rfl⟩
  · exact exec_fault_timers (s := { s with pc := s.pc + 2#16 }) h

/-- Steps that stop after the first `k` stop the longer run. -/
theorem runSteps_stops {k count : Nat} {s t : State} {f : Fault} (hk : k < count) (hgo : runSteps k s = .next t)
    (hstop : step t = .fault f) : runSteps count s = .fault f := by
  obtain ⟨rest, rfl⟩ := Nat.exists_eq_add_of_lt hk
  rw [Nat.add_assoc, runSteps_add, hgo, andThen_next, runSteps, hstop, andThen_fault]

/-- Settles O53: the timers drop after the last step, which a stop before it does not reach. -/
theorem tickRunsStepsThenTimers : Obligations.TickRunsStepsThenTimers := by
  intro s hf
  refine ⟨fun t ht => ⟨_, tick_next hf ht, decrementTimer_toNat t.dt, decrementTimer_toNat t.st,
    changesOnly_decrementTimers t⟩, fun k t e u hk hgo hstop => ⟨?stops, step_fault_timers hstop⟩⟩
  case stops => rw [tick_unfaulted hf, runSteps_stops hk hgo hstop, andThen_fault]

/-! ## States that steps leave as they are -/

theorem runSteps_fixed {s : State} (h : step s = .next s) (count : Nat) : runSteps count s = .next s := by
  induction count with
  | zero => rfl
  | succ n ih => rw [runSteps, h, andThen_next, ih]

/-- A tick of an unfaulted state that steps leave as it is drops the timers. -/
theorem tick_fixed {s : State} (hf : s.fault = none) (h : step s = .next s) : tick s = .next (decrementTimers s) :=
  tick_next hf (runSteps_fixed h _)

/-- PC after the fetch's advance and a rewind is what it was. -/
theorem step_waiting {s : State} (h : s.waiting) : step s = .next s := by
  obtain ⟨hf, hin, hrow, hkeys⟩ := h
  rw [step_ok hf hin (rowDecodes_opcodeRow (.ldVxK 0) _ hrow)]
  refine (exec_ldVxK_waits (s := { s with pc := s.pc + 2#16 }) hkeys).trans ?_
  simp only [BitVec.add_sub_cancel]

/-- Settles O54: the wait is a fixed point of the step. -/
theorem waitingMachinePolls : Obligations.WaitingMachinePolls := fun s h =>
  ⟨step_waiting h, _, tick_fixed h.1 (step_waiting h), decrementTimer_toNat s.dt, decrementTimer_toNat s.st,
    changesOnly_decrementTimers s⟩

/-! ## The end of a run (R132) -/

/-- A word of the numbers 0x1000 to 0x1FFF is a jump to its low 12 bits. -/
theorem decodeWord_jump {w : Word} {a : Nat} (ha : a < 4096) (hw : w.toNat = 0x1000 + a) :
    decodeWord w = .ok (.jp (fieldNNN w)) := by
  have hquotient : (0x1000 + a) / 4096 = 1 := by omega
  have hf : fieldF w = 0x1#4 := BitVec.eq_of_toNat_eq (by rw [fieldF_toNat, hw, hquotient]; rfl)
  have hjump := decodeWord_encodeWord (.jp (fieldNNN w))
  rwa [encodeWord, wordFNNN_of_family hf] at hjump

theorem step_atSelfJump {s : State} (h : s.atSelfJump) : step s = .next s := by
  obtain ⟨hf, hpc, hw⟩ := h
  have htarget : zextAddr (fieldNNN (s.wordAt s.pc.toNat)) = s.pc :=
    BitVec.eq_of_toNat_eq (by rw [zextAddr_toNat, fieldNNN_toNat, hw]; omega)
  rw [step_ok hf (by simp only [memSize]; omega) (decodeWord_jump (by omega) hw), exec, execJp, htarget]

/-- Settles O55: the jump is a fixed point of the step, and neither the timers nor the keypad are read by what ends a
run. -/
theorem endedRunStaysEnded : Obligations.EndedRunStaysEnded := by
  intro s h
  have htick : tick s = .next (decrementTimers s) := tick_fixed h.1 (step_atSelfJump h)
  refine ⟨step_atSelfJump h, _, htick, h, decrementTimer_toNat s.dt, decrementTimer_toNat s.st,
    changesOnly_decrementTimers s, fun start ⟨_, hreached⟩ => ⟨⟨h, ?afterTick⟩, fun keys => ⟨h, ?afterInput⟩⟩⟩
  case afterTick => exact reachedFrom_hostCall (c := .tick) rfl hreached htick
  case afterInput => exact reachedFrom_hostCall (c := .setInput keys) rfl hreached rfl

end Sys2Proof.Machine
end
